-- ==== Sys2Proof/Word.lean ====
section
/-! DEFINITION. The word types of the block: a byte of a frame, a 16-bit field, a 32-bit host
register, a 16-bit host address (00_scope.md section 5 and rule R8). -/

namespace Sys2Proof

/-- u8: one byte of a frame, one rx beat's data. -/
abbrev Byte := BitVec 8

/-- u16 or s16: one big-endian field of a frame. -/
abbrev Half := BitVec 16

/-- u32: one host register (R8). -/
abbrev Word := BitVec 32

/-- A byte address of the 16-bit host register space (R8). -/
abbrev Addr := BitVec 16

/-- The 12-bit immediate of a WR word (R99). -/
abbrev Imm12 := BitVec 12

end Sys2Proof
end

