-- ==== Sys2Proof/Config.lean ====
section
/-! DEFINITION. The parameters of the block and the protocol constants (00_scope.md rules R2 to R7).
The block has no free value: the spec leaves no result of an operation open. -/

namespace Sys2Proof

/-- The one parameter a rule of the transaction-level model reads (R5, R11). LATENCY, RESET_SYNC,
BASE and IRQ_ROUTE are read by no rule (92_eei_decisions.md; logs 9 and 10). -/
structure Config where
  /-- BUF_MAX, the capacity of the assembler buffer in bytes (R5). -/
  bufMax : Nat
  deriving DecidableEq, Repr

/-- 34 ≤ BUF_MAX ≤ 16384 (R5). -/
abbrev Config.Wf (c : Config) : Prop := 34 ≤ c.bufMax ∧ c.bufMax ≤ 16384

/-- CELL_MAX = floor((BUF_MAX − 7) / 2) (R6). -/
def Config.cellMax (c : Config) : Nat := (c.bufMax - 7) / 2

/-- The spec's default, BUF_MAX = 1024 (R5). -/
def Config.standard : Config := { bufMax := 1024 }

/-- The start sentinel (R2). -/
abbrev START : Byte := 0xDD#8
/-- The end sentinel and reassembly terminator (R2). -/
abbrev TERM : Byte := 0x77#8
/-- The request marker, byte 1 of every request (R2). -/
abbrev REQ : Byte := 0xA5#8
/-- The Basic Info key (R2). -/
abbrev CMD_BASIC : Byte := 0x03#8
/-- The Cell Voltage key (R2). -/
abbrev CMD_CELL : Byte := 0x04#8
/-- A Basic Info frame is at least this long (R3). -/
abbrev BASIC_MIN_LEN : Nat := 34
/-- A Cell Voltage frame is at least this long: longer than 6 (R3). -/
abbrev CELL_MIN_LEN : Nat := 7
/-- The temperature offset, in units of 0.1 K (R4). -/
abbrev T_OFS : Word := 2731#32
/-- The year base (R4). -/
abbrev YEAR_BASE : BitVec 12 := 2000#12
/-- The number of NTC entries the bank stores (R7). -/
abbrev NTC_MAX : Nat := 255

end Sys2Proof
end

