-- ==== Sys2Proof/Syntax.lean ====
section
/-! DEFINITION. The instruction set: one constructor per row of spec/opcode_table.json. The "ISA" of
the block is its host operations and its frame kinds (00_scope.md section 1). -/

namespace Sys2Proof

/-- The operations of the block. A host operation is spelled by a host transaction word (R96); a frame
kind is selected by a frame's key F[1] (R102). -/
inductive Instr where
  /-- PUSH: an rx beat with its LAST flag and its DATA byte (R97, R130). -/
  | push (last : Bool) (data : Byte)
  /-- DISPATCH: the terminating beat, LAST = 1 and DATA = 0x77 (R131, R150). -/
  | dispatch
  /-- BASIC_INFO: the frame kind of key 0x03 (R152). -/
  | basicInfo
  /-- CELL_VOLTAGE: the frame kind of key 0x04 (R156). -/
  | cellVoltage
  /-- IGNORE: the frame kind of every other key (R158). -/
  | ignore (key : Byte)
  /-- RUNT: the frame of length 1, which has no key (R159). -/
  | runt
  /-- RD: a register read at ADDR (R98, R190). -/
  | rd (addr : Addr)
  /-- WR to CTRL; `lane` is ADDR[1:0], which the bus ignores (R64, R191). -/
  | wrCtrl (lane : BitVec 2) (imm : Imm12)
  /-- WR to STATUS; `lane` is ADDR[1:0] (R192). -/
  | wrStatus (lane : BitVec 2) (imm : Imm12)
  /-- WR to IRQ_EN; `lane` is ADDR[1:0] (R193). -/
  | wrIrqEn (lane : BitVec 2) (imm : Imm12)
  /-- WR to any other ADDR (R194). -/
  | wrOther (addr : Addr) (imm : Imm12)
  /-- ENC: a command code on the encoder port (R100, R120). -/
  | enc (cmd : Byte)
  deriving DecidableEq, Repr

end Sys2Proof
end

