-- ==== Sys2Proof/WellFormed.lean ====
section
/-! DEFINITION. Which terms of `Instr` are rows of the opcode table with their own words: the three
rows that overlap another row exclude its words. -/

namespace Sys2Proof

/-- The register a byte address reaches, as a word address shifted right by two: ADDR & 0xFFFC without
its two zero bits (R64). -/
def wordIndex (addr : Addr) : BitVec 14 := addr.extractLsb' 2 14

/-- A PUSH word is not the terminating beat, which is DISPATCH's row; an IGNORE key is neither 0x03 nor
0x04 (R158); a WR_OTHER address is none of CTRL, STATUS and IRQ_EN (R194). -/
def Instr.wellFormed : Instr → Bool
  | .push last data => !(last && data == 0x77#8)
  | .dispatch => true
  | .basicInfo => true
  | .cellVoltage => true
  | .ignore key => key != 0x03#8 && key != 0x04#8
  | .runt => true
  | .rd _ => true
  | .wrCtrl _ _ => true
  | .wrStatus _ _ => true
  | .wrIrqEn _ _ => true
  | .wrOther addr _ => wordIndex addr != 1#14 && wordIndex addr != 2#14 && wordIndex addr != 3#14
  | .enc _ => true

end Sys2Proof
end

