-- ==== Sys2Proof/Decode.lean ====
section
/-! DEFINITION. The decoder, total on every word, key and frame, and the encoder written from the same
tables (30_encoding.md rules R96 to R102). -/

namespace Sys2Proof

/-- What a row of the opcode table matches on: a host transaction word (R96), a frame key F[1], or the
absence of a key in a frame of length 1 (R102). -/
inductive Code where
  | htw (w : Word)
  | key (k : Byte)
  | noKey
  deriving DecidableEq, Repr

/-- Why a word spells no host operation, one name for each case of R101. -/
inductive DecodeError where
  /-- OP is 0x0 or 0x5 to 0xF. -/
  | reservedOp (op : BitVec 4)
  /-- A PUSH with any of bits [27:9] set. -/
  | pushBitsSet
  /-- An RD with any of bits [11:0] set. -/
  | rdBitsSet
  /-- An ENC with any of bits [27:8] set. -/
  | encBitsSet
  deriving DecidableEq, Repr

/-- What the decoder reads: an operation, or the reason there is none. -/
inductive Decoded where
  | ok (i : Instr)
  | error (e : DecodeError)
  deriving DecidableEq, Repr

/-- The operation of a PUSH word's fields: the terminating beat is DISPATCH (R131). -/
def beatInstr (last : Bool) (data : Byte) : Instr :=
  if last = true ∧ data = TERM then .dispatch else .push last data

/-- The operation of a WR word's fields: the row is chosen by ADDR & 0xFFFC (R191 to R194). -/
def writeInstr (addr : Addr) (imm : Imm12) : Instr :=
  if wordIndex addr = 1#14 then .wrCtrl (addr.extractLsb' 0 2) imm
  else if wordIndex addr = 2#14 then .wrStatus (addr.extractLsb' 0 2) imm
  else if wordIndex addr = 3#14 then .wrIrqEn (addr.extractLsb' 0 2) imm
  else .wrOther addr imm

/-- The host transaction word (R96 to R101): OP is bits [31:28]. -/
def decodeHtw (w : Word) : Decoded :=
  if w.extractLsb' 28 4 = 0x1#4 then
    if w.extractLsb' 9 19 = 0#19 then .ok (beatInstr (w.getLsbD 8) (w.extractLsb' 0 8))
    else .error .pushBitsSet
  else if w.extractLsb' 28 4 = 0x2#4 then
    if w.extractLsb' 0 12 = 0#12 then .ok (.rd (w.extractLsb' 12 16))
    else .error .rdBitsSet
  else if w.extractLsb' 28 4 = 0x3#4 then
    .ok (writeInstr (w.extractLsb' 12 16) (w.extractLsb' 0 12))
  else if w.extractLsb' 28 4 = 0x4#4 then
    if w.extractLsb' 8 20 = 0#20 then .ok (.enc (w.extractLsb' 0 8))
    else .error .encBitsSet
  else .error (.reservedOp (w.extractLsb' 28 4))

/-- The frame kind of a key: every one of the 256 keys has one (R102). -/
def decodeKey (k : Byte) : Instr :=
  if k = CMD_BASIC then .basicInfo
  else if k = CMD_CELL then .cellVoltage
  else .ignore k

/-- The decoder. -/
def decode : Code → Decoded
  | .htw w => decodeHtw w
  | .key k => .ok (decodeKey k)
  | .noKey => .ok .runt

/-- What a frame is keyed by: F[1] when it has one (R102). -/
def frameCode : List Byte → Code
  | _ :: k :: _ => .key k
  | _ => .noKey

/-- The encoder: the word of a host operation, or the key of a frame kind. -/
def encode : Instr → Code
  | .push last data => .htw (0x1#4 ++ 0#19 ++ BitVec.ofBool last ++ data)
  | .dispatch => .htw (0x1#4 ++ 0#19 ++ 1#1 ++ TERM)
  | .basicInfo => .key CMD_BASIC
  | .cellVoltage => .key CMD_CELL
  | .ignore key => .key key
  | .runt => .noKey
  | .rd addr => .htw (0x2#4 ++ addr ++ 0#12)
  | .wrCtrl lane imm => .htw (0x3#4 ++ (1#14 ++ lane) ++ imm)
  | .wrStatus lane imm => .htw (0x3#4 ++ (2#14 ++ lane) ++ imm)
  | .wrIrqEn lane imm => .htw (0x3#4 ++ (3#14 ++ lane) ++ imm)
  | .wrOther addr imm => .htw (0x3#4 ++ addr ++ imm)
  | .enc cmd => .htw (0x4#4 ++ 0#20 ++ cmd)

/-- The code a table row's bits stand for: 32 bits are a host transaction word, 8 bits a frame key, no
bits the row without a key (log 8). -/
def tableCode (nbits w : Nat) : Option Code :=
  if nbits = 32 then some (.htw (BitVec.ofNat 32 w))
  else if nbits = 8 then some (.key (BitVec.ofNat 8 w))
  else if nbits = 0 then some .noKey
  else none

/-- The instruction the decoder reads from a table row's bits; none where it refuses. -/
def decodeTableWord (nbits w : Nat) : Option Instr :=
  match tableCode nbits w with
  | none => none
  | some c =>
    match decode c with
    | .ok i => some i
    | .error _ => none

end Sys2Proof
end

