-- ==== Sys2Proof/Machine/State.lean ====
section
/-! DEFINITION. The state of the block: the elements of rules R13 to R25 (10_state.md rule R11), and
beside them what one step has nowhere else to find or leave (the parameter, the pins and the stimuli
still to come). Plain data throughout. -/

namespace Sys2Proof.Machine

/-- The assembler's two modes (R14). -/
inductive Mode where
  | accum
  | discard
  deriving DecidableEq, Repr

/-- LAST_RESULT's codes (R210). Codes 9 to 15 are reserved and never produced, so they have no name. -/
inductive ResultCode where
  | none
  | basicOk
  | cellOk
  | ignored
  | invalidShort
  | invalidStart
  | deviceError
  | invalidNtc
  | runt
  deriving DecidableEq, Repr

/-- The contents of the frame buffer address space (R60), buf[0..len-1], oldest byte first. The bytes
at len and beyond are left out (R15). `len` is the list's length (R13). -/
abbrev Memory := List Byte

/-- The basic field set (R16 to R18). -/
structure BasicSet where
  vTotal : Half
  /-- s16 in two's complement (R91). -/
  iCurr : Half
  capRes : Half
  capNom : Half
  cycles : Half
  mfgRaw : Half
  balLo : Half
  balHi : Half
  prot : Half
  version : Byte
  rsoc : Byte
  fet : Byte
  cellBlocks : Byte
  ntcN : Byte
  /-- The entries NTC[0..NTC_N-1], raw (R17); entries beyond are unobservable and left out (D37). -/
  ntc : List Half
  /-- BASIC_VALID (R18). -/
  valid : Bool
  deriving DecidableEq, Repr

/-- The cell field set (R19). -/
structure CellSet where
  /-- The entries CELL[0..CELL_N-1], in mV; entries beyond are unobservable and left out (D37). -/
  cell : List Half
  cellN : Nat
  /-- CELL_VALID. -/
  valid : Bool
  deriving DecidableEq, Repr

/-- The last-frame record (R23). -/
structure LastFrame where
  result : ResultCode
  key : Byte
  keyValid : Bool
  len : Half
  deriving DecidableEq, Repr

/-- The status-byte record (R24). -/
structure StatRecord where
  byte : Byte
  valid : Bool
  deriving DecidableEq, Repr

/-- The levels on the block's input pins at one rising edge of `clk` (R80 to R83). -/
structure Pins where
  rst : Bool
  rxValid : Bool
  rxData : Byte
  rxLast : Bool
  regReq : Bool
  regWe : Bool
  regAddr : Addr
  regWdata : Word
  encCmd : Byte
  deriving DecidableEq, Repr

/-- What the outside presents to the block: one host operation as its word (R96), or one clock edge as
its pins (R74). -/
inductive Stimulus where
  | htw (w : Word)
  | edge (p : Pins)
  deriving DecidableEq, Repr

/-- The state. `cfg`, `readData`, `encCmd` and `pending` are the model's own (logs 1 to 4); every other
field is an element of R13 to R25. -/
structure State where
  /-- The parameter BUF_MAX, fixed for the machine (R5, R11; log 2). -/
  cfg : Config
  /-- buf[0..len-1] and len (R13). -/
  buf : Memory
  /-- R14. -/
  mode : Mode
  /-- R16 to R18. -/
  basic : BasicSet
  /-- R19. -/
  cells : CellSet
  /-- STICKY[5:0] (R21). -/
  sticky : BitVec 6
  /-- IRQ_EN[5:0] (R22). -/
  irqEn : BitVec 6
  /-- R23. -/
  last : LastFrame
  /-- R24. -/
  stat : StatRecord
  /-- BASIC_GEN[15:0] (R25). -/
  basicGen : Half
  /-- CELL_GEN[15:0] (R25). -/
  cellGen : Half
  /-- The value the most recent register read returned on `reg_rdata` (R82; log 3). -/
  readData : Word
  /-- The level on the input pins `enc_cmd` (R81; log 4). -/
  encCmd : Byte
  /-- The stimuli still to come, the next one first (R73; log 1). -/
  pending : List Stimulus
  deriving DecidableEq, Repr

/-- No behaviour of the block is a fault: "every input, on every port, has a defined next state"
(93_implementation_defined.md section 2). The type has no constructor, so no step can fault. -/
inductive Fault : Type
  deriving DecidableEq, Repr

/-- Why a step has no next state. -/
inductive Refusal where
  /-- Raised by `exec` for an instruction that has no meaning yet; no arm raises it. Safe. -/
  | notModelled (mnemonic : String)
  /-- Raised by `step` for a word that spells no host operation: "A transcriber refuses such a word by
  name" (R101). Safe: the block never receives such a word (log 12). -/
  | noHostOperation (e : DecodeError)
  deriving DecidableEq, Repr

/-- The basic field set after reset (R240). -/
def BasicSet.empty : BasicSet :=
  { vTotal := 0#16, iCurr := 0#16, capRes := 0#16, capNom := 0#16, cycles := 0#16, mfgRaw := 0#16, balLo := 0#16,
    balHi := 0#16, prot := 0#16, version := 0#8, rsoc := 0#8, fet := 0#8, cellBlocks := 0#8, ntcN := 0#8,
    ntc := [], valid := false }

/-- The cell field set after reset (R240). -/
def CellSet.empty : CellSet := { cell := [], cellN := 0, valid := false }

/-- The state after reset of a block with the given parameter (R240), nothing presented. -/
def State.resetWith (cfg : Config) : State :=
  { cfg := cfg
    buf := []
    mode := .accum
    basic := BasicSet.empty
    cells := CellSet.empty
    sticky := 0#6
    irqEn := 0#6
    last := { result := .none, key := 0#8, keyValid := false, len := 0#16 }
    stat := { byte := 0#8, valid := false }
    basicGen := 0#16
    cellGen := 0#16
    readData := 0#32
    encCmd := 0#8
    pending := [] }

/-- The machine right after reset, with the spec's default BUF_MAX = 1024 (R5, R240). -/
def State.reset : State := State.resetWith Config.standard

end Sys2Proof.Machine
end

