-- ==== Sys2Proof/Machine/Flags.lean ====
section
/-! DEFINITION. The STICKY event bits, the interrupt line, the result codes' numbers (60_exceptions.md
rules R210, R211, R221; 43_host_bus.md rules R192, R195). -/

namespace Sys2Proof.Machine

/-- LAST_RESULT[3:0] of each result (R210). -/
def resultNumber : ResultCode → BitVec 4
  | .none => 0#4
  | .basicOk => 1#4
  | .cellOk => 2#4
  | .ignored => 3#4
  | .invalidShort => 4#4
  | .invalidStart => 5#4
  | .deviceError => 6#4
  | .invalidNtc => 7#4
  | .runt => 8#4

/-- 1 << bit(code), the STICKY bit each outcome sets (R211). NONE is no outcome and sets none. -/
def outcomeBit : ResultCode → BitVec 6
  | .none => 0b000000#6
  | .basicOk => 0b000001#6
  | .cellOk => 0b000010#6
  | .ignored => 0b000100#6
  | .runt => 0b000100#6
  | .invalidShort => 0b001000#6
  | .invalidStart => 0b001000#6
  | .invalidNtc => 0b001000#6
  | .deviceError => 0b010000#6

/-- The STICKY bit of the overflow event (R211, R215). -/
def overflowBit : BitVec 6 := 0b100000#6

/-- An event sets its bits and leaves the others (R21). -/
def setSticky (sticky bits : BitVec 6) : BitVec 6 := sticky ||| bits

/-- W1C: STICKY[5:0] & ~d[5:0] (R192). -/
def clearSticky (sticky : BitVec 6) (d : Word) : BitVec 6 := sticky &&& ~~~(d.extractLsb' 0 6)

/-- irq = OR over k of (STICKY[k] AND IRQ_EN[k]) (R195). -/
def irqOf (sticky irqEn : BitVec 6) : Bool := sticky &&& irqEn != 0#6

/-- The irq output, a function of state (R195). -/
def State.irq (s : State) : Bool := irqOf s.sticky s.irqEn

end Sys2Proof.Machine
end

