-- ==== Sys2Proof/Machine/Operands.lean ====
section
/-! DEFINITION. The operand forms: the fields of a frame (30_encoding.md section 3), the packed date, the
temperatures, the request frame of the encoder, and the write data of a WR word. -/

namespace Sys2Proof.Machine

/-- F[i]. Every rule that reads F[i] checks i < L first, so the 0 of a missing byte is read by no rule
(R90; log 13). -/
def frameByte (f : Memory) (i : Nat) : Byte := f.getD i 0#8

/-- be16(F, i): F[i] is the more significant byte (R61, R90). -/
def be16 (f : Memory) (i : Nat) : Half := frameByte f i ++ frameByte f (i + 1)

/-- `count` consecutive 16-bit values from offset `base`, stepping by 2 (R155, R157). -/
def be16List (f : Memory) (base count : Nat) : List Half :=
  (List.range count).map fun k => be16 f (base + 2 * k)

/-- N, the NTC count of a Basic Info frame (R86). -/
def ntcCount (f : Memory) : Byte := frameByte f 26

/-- M = floor((L − 7) / 2), the number of cell values (R157). -/
def cellCount (f : Memory) : Nat := (f.length - 7) / 2

/-- The basic field set of a Basic Info frame (R86, R152); the current is the same 16 bits read in
two's complement (R91). -/
def basicOf (f : Memory) : BasicSet :=
  { vTotal := be16 f 4
    iCurr := be16 f 6
    capRes := be16 f 8
    capNom := be16 f 10
    cycles := be16 f 12
    mfgRaw := be16 f 14
    balLo := be16 f 16
    balHi := be16 f 18
    prot := be16 f 20
    version := frameByte f 22
    rsoc := frameByte f 23
    fet := frameByte f 24
    cellBlocks := frameByte f 25
    ntcN := ntcCount f
    ntc := be16List f 27 (ntcCount f).toNat
    valid := true }

/-- The cell field set of a Cell Voltage frame (R87, R156). -/
def cellsOf (f : Memory) : CellSet :=
  { cell := be16List f 4 (cellCount f), cellN := cellCount f, valid := true }

/-- YEAR of the packed date, b0 = MFG_RAW[15:8] (R40, R92). -/
def mfgYear (raw : Half) : BitVec 12 := YEAR_BASE + (raw.extractLsb' 9 7).setWidth 12

/-- MONTH: b0[0] above b1[7:5] (R40, R92). -/
def mfgMonth (raw : Half) : BitVec 4 := raw.extractLsb' 8 1 ++ raw.extractLsb' 5 3

/-- DAY: b1[4:0] (R40, R92). -/
def mfgDay (raw : Half) : BitVec 5 := raw.extractLsb' 0 5

/-- The MFG_DATE register of a packed date: YEAR in [27:16], MONTH in [11:8], DAY in [4:0] (R40). -/
def mfgDate (raw : Half) : Word := 0#4 ++ mfgYear raw ++ 0#4 ++ mfgMonth raw ++ 0#3 ++ mfgDay raw

/-- The presented temperature, raw − 2731 modulo 2^32 (R51, R93). -/
def ntcTemp (raw : Half) : Word := raw.setWidth 32 - T_OFS

/-- The checksum byte of a request: (0xFF − (c − 1)) mod 2^8 (R120). -/
def checksum (c : Byte) : Byte := 0xFF#8 - (c - 1#8)

/-- The seven bytes of the request frame, in transmission order (R84, R120). -/
def requestFrame (c : Byte) : List Byte := [START, REQ, c, 0x00#8, 0xFF#8, checksum c, TERM]

/-- The request frame on `enc_frame[55:0]`: byte k in bits [55−8k : 48−8k] (R63, R81). -/
def requestBits (c : Byte) : BitVec 56 := START ++ REQ ++ c ++ 0x00#8 ++ 0xFF#8 ++ checksum c ++ TERM

/-- The write data of a WR word: zext_32(IMM12) (R99). -/
def immWord (imm : Imm12) : Word := imm.setWidth 32

/-- ADDR of a WR word whose row fixes bits [15:2] (R191 to R193). -/
def laneAddr (index : BitVec 14) (lane : BitVec 2) : Addr := index ++ lane

end Sys2Proof.Machine
end

