-- ==== Sys2Proof/Machine/Ops.lean ====
section
/-! DEFINITION. The named operations over the state that the meanings are written with: the assembler
buffer, the outcome of a decode, the commits, the register map and its views, the acknowledgements, and
reset. -/

namespace Sys2Proof.Machine

/-! ## The frame buffer -/

/-- The buffer holds at most BUF_MAX bytes (R13). A sequence is its own canonical form, so equal buffers
are equal data. -/
abbrev Memory.wf (cap : Nat) (m : Memory) : Bool := decide (m.length ≤ cap)

/-- buf[i] of the frame buffer address space (R60): the bytes at len and beyond are not held (R15). -/
def Memory.read (m : Memory) (i : Nat) : Option Byte := m[i]?

/-- buf[len] <- b; len <- len + 1 (R130). -/
def State.storeByte (b : Byte) (s : State) : State := { s with buf := s.buf ++ [b] }

/-- len <- 0 (R130, R132). -/
def State.emptyBuffer (s : State) : State := { s with buf := [] }

/-- mode <- m (R14). -/
def State.setMode (m : Mode) (s : State) : State := { s with mode := m }

/-- ClearAssembler (R135). -/
def State.clearAssembler (s : State) : State := { s with buf := [], mode := .accum }

/-! ## Outcomes: the block's form of an exception (60_exceptions.md section 3) -/

/-- LAST_RESULT <- code; STICKY[bit(code)] <- 1 (R151). It is the whole effect of `raise Outcome(code)`,
and the last two writes of a commit (R152, R156). -/
def State.raiseOutcome (code : ResultCode) (s : State) : State :=
  { s with last := { s.last with result := code }, sticky := setSticky s.sticky (outcomeBit code) }

/-- STICKY[5] <- 1, the overflow event (R133, R215). -/
def State.raiseOverflow (s : State) : State := { s with sticky := setSticky s.sticky overflowBit }

/-- The acknowledgement, which is all there is of a return (R220): STICKY <- STICKY & ~d[5:0] (R192). -/
def State.ackSticky (d : Word) (s : State) : State := { s with sticky := clearSticky s.sticky d }

/-- IRQ_EN[5:0] <- d[5:0] (R193). -/
def State.setIrqEn (d : Word) (s : State) : State := { s with irqEn := d.extractLsb' 0 6 }

/-! ## The records and the commits -/

/-- The last-frame record's key half: LAST_LEN, KEY_VALID, LAST_KEY (R150). LAST_RESULT is the selected
decode's. -/
def keyRecord (f : Memory) (old : LastFrame) : LastFrame :=
  { result := old.result
    len := BitVec.ofNat 16 f.length
    keyValid := decide (2 ≤ f.length)
    key := if 2 ≤ f.length then frameByte f 1 else 0#8 }

/-- The status-byte record: F[2] when there is one (R24, R150). -/
def statRecord (f : Memory) : StatRecord :=
  { valid := decide (3 ≤ f.length), byte := if 3 ≤ f.length then frameByte f 2 else 0#8 }

/-- The writes DISPATCH makes before the selected decode (R150). -/
def State.recordFrame (f : Memory) (s : State) : State :=
  { s with last := keyRecord f s.last, stat := statRecord f }

/-- The basic field set is replaced wholesale and BASIC_GEN counts up modulo 2^16 (R152, R154, R25). -/
def State.commitBasic (f : Memory) (s : State) : State :=
  { s with basic := basicOf f, basicGen := s.basicGen + 1#16 }

/-- The cell field set is replaced wholesale and CELL_GEN counts up modulo 2^16 (R156, R25). -/
def State.commitCells (f : Memory) (s : State) : State :=
  { s with cells := cellsOf f, cellGen := s.cellGen + 1#16 }

/-! ## The register map -/

/-- The registers of the map (R27). -/
inductive Reg where
  | param | ctrl | status | irqEn | lastFrame | lastStat | gen
  | vTotal | current | capRes | capNom | cycles | mfgDate | mfgRaw | balLo | balHi | prot
  | version | rsoc | fet | cellBlocks | ntcCount | cellCount
  | ntcTemp (i : Nat)
  | cellMv (j : Nat)
  | unmapped
  deriving DecidableEq, Repr

/-- The registers at fixed addresses (R27). -/
def regTable : List (Addr × Reg) :=
  [ (0x0000#16, .param), (0x0004#16, .ctrl), (0x0008#16, .status), (0x000C#16, .irqEn),
    (0x0010#16, .lastFrame), (0x0014#16, .lastStat), (0x0018#16, .gen),
    (0x0020#16, .vTotal), (0x0024#16, .current), (0x0028#16, .capRes), (0x002C#16, .capNom),
    (0x0030#16, .cycles), (0x0034#16, .mfgDate), (0x0038#16, .mfgRaw), (0x003C#16, .balLo),
    (0x0040#16, .balHi), (0x0044#16, .prot), (0x0048#16, .version), (0x004C#16, .rsoc),
    (0x0050#16, .fet), (0x0054#16, .cellBlocks), (0x0058#16, .ntcCount), (0x005C#16, .cellCount) ]

/-- The register of the NTC window 0x0400 + 4·i, 0 ≤ i ≤ 254, and of the cell window 0x8000 + 4·j,
0 ≤ j < CELL_MAX; every other word address is unmapped (R27, R51 to R53). -/
def arrayReg (cfg : Config) (a : Nat) : Reg :=
  if 0x0400 ≤ a ∧ a < 0x0400 + 4 * NTC_MAX then .ntcTemp ((a - 0x0400) / 4)
  else if 0x8000 ≤ a ∧ a < 0x8000 + 4 * cfg.cellMax then .cellMv ((a - 0x8000) / 4)
  else .unmapped

/-- The register an access to byte address `a` reaches, the one at a & 0xFFFC (R64). -/
def regAt (cfg : Config) (a : Addr) : Reg :=
  match regTable.lookup (a &&& 0xFFFC#16) with
  | some r => r
  | none => arrayReg cfg (a &&& 0xFFFC#16).toNat

/-- view(w): the value a read of each register returns (R28 to R53). -/
def view (s : State) : Reg → Word
  | .param => BitVec.ofNat 16 s.cfg.cellMax ++ BitVec.ofNat 16 s.cfg.bufMax
  | .ctrl => 0#32
  | .status =>
    BitVec.ofNat 16 s.buf.length ++ 0#3 ++ BitVec.ofBool (decide (s.mode = .discard)) ++ 0#2 ++
      BitVec.ofBool s.cells.valid ++ BitVec.ofBool s.basic.valid ++ 0#2 ++ s.sticky
  | .irqEn => s.irqEn.setWidth 32
  | .lastFrame =>
    s.last.len ++ s.last.key ++ BitVec.ofBool s.last.keyValid ++ 0#3 ++ resultNumber s.last.result
  | .lastStat => 0#23 ++ BitVec.ofBool s.stat.valid ++ s.stat.byte
  | .gen => s.cellGen ++ s.basicGen
  | .vTotal => s.basic.vTotal.setWidth 32
  | .current => s.basic.iCurr.signExtend 32
  | .capRes => s.basic.capRes.setWidth 32
  | .capNom => s.basic.capNom.setWidth 32
  | .cycles => s.basic.cycles.setWidth 32
  | .mfgDate => if s.basic.valid then mfgDate s.basic.mfgRaw else 0#32
  | .mfgRaw => s.basic.mfgRaw.setWidth 32
  | .balLo => s.basic.balLo.setWidth 32
  | .balHi => s.basic.balHi.setWidth 32
  | .prot => s.basic.prot.setWidth 32
  | .version => s.basic.version.setWidth 32
  | .rsoc => s.basic.rsoc.setWidth 32
  | .fet => s.basic.fet.setWidth 32
  | .cellBlocks => s.basic.cellBlocks.setWidth 32
  | .ntcCount => s.basic.ntcN.setWidth 32
  | .cellCount => BitVec.ofNat 32 s.cells.cellN
  | .ntcTemp i => if i < s.basic.ntcN.toNat then ntcTemp (s.basic.ntc.getD i 0#16) else 0#32
  | .cellMv j => if j < s.cells.cellN then (s.cells.cell.getD j 0#16).setWidth 32 else 0#32
  | .unmapped => 0#32

/-- RegRead(a) (R190). -/
def regRead (a : Addr) (s : State) : Word := view s (regAt s.cfg a)

/-- The read's value appears on `reg_rdata` (R82). -/
def State.latchRead (v : Word) (s : State) : State := { s with readData := v }

/-- WR(CTRL, d): CLEAR_ASM acts when d[0] = 1 (R29, R191). -/
def ctrlWrite (d : Word) (s : State) : State := if d.getLsbD 0 then s.clearAssembler else s

/-- RegWrite(a, d) with the full 32-bit data of the bus (R82, R191 to R194). -/
def regWrite (a : Addr) (d : Word) (s : State) : State :=
  match regAt s.cfg a with
  | .ctrl => ctrlWrite d s
  | .status => s.ackSticky d
  | .irqEn => s.setIrqEn d
  | _ => s

/-! ## The encoder port, the input queue and reset -/

/-- `enc_cmd` is an input: the outside holds a level on it (R81). -/
def State.presentCmd (c : Byte) (s : State) : State := { s with encCmd := c }

/-- `enc_frame`, a function of `enc_cmd` alone (R26, R81, R123). -/
def State.encFrame (s : State) : BitVec 56 := requestBits s.encCmd

/-- The stimuli still to come (log 1). -/
def State.setPending (l : List Stimulus) (s : State) : State := { s with pending := l }

/-- The reset transaction: every element of R13 to R25 to its reset value, reads 0 (R240, R241). The
parameter is no state, and reset does not touch the encoder's input or the outside (R11, R241). -/
def State.hardReset (s : State) : State :=
  { State.resetWith s.cfg with encCmd := s.encCmd, pending := s.pending }

end Sys2Proof.Machine
end

