-- ==== Sys2Proof/Machine/Decoder.lean ====
section
/-! DEFINITION. The Payload Decoder (42_decoder.md): the frame kinds BASIC_INFO, CELL_VOLTAGE, IGNORE and
RUNT, and the dispatch that selects one of them. A frame kind's own meaning decodes the complete frame
that stands in the assembler buffer and empties the buffer (R132; log 6). -/

namespace Sys2Proof.Machine

/-- BASIC_INFO(F): the first failing check gives the outcome (R152, R153). -/
def basicInfo (f : Memory) (s : State) : State :=
  if f.length < BASIC_MIN_LEN then s.raiseOutcome .invalidShort
  else if frameByte f 0 ≠ START then s.raiseOutcome .invalidStart
  else if frameByte f 2 ≠ 0x00#8 then s.raiseOutcome .deviceError
  else if f.length < 27 + 2 * (ntcCount f).toNat then s.raiseOutcome .invalidNtc
  else (s.commitBasic f).raiseOutcome .basicOk

/-- CELL_VOLTAGE(F) (R156). -/
def cellVoltage (f : Memory) (s : State) : State :=
  if f.length < CELL_MIN_LEN then s.raiseOutcome .invalidShort
  else (s.commitCells f).raiseOutcome .cellOk

/-- IGNORE(F) (R158). -/
def ignoreFrame (s : State) : State := s.raiseOutcome .ignored

/-- RUNT(F) (R159). -/
def runtFrame (s : State) : State := s.raiseOutcome .runt

/-- The decode DISPATCH selects, by the frame's key (R102, R150). -/
def selectDecode (f : Memory) (s : State) : State :=
  match frameCode f with
  | .key k =>
    if k = CMD_BASIC then basicInfo f s
    else if k = CMD_CELL then cellVoltage f s
    else ignoreFrame s
  | _ => runtFrame s

/-- DISPATCH(F) (R150). -/
def dispatchFrame (f : Memory) (s : State) : State := selectDecode f (s.recordFrame f)

/-- BASIC_INFO on the complete frame in the buffer (R132, R152). -/
def execBasicInfo (s : State) : Host.Outcome State Fault Refusal :=
  .next (basicInfo s.buf s.emptyBuffer)

/-- CELL_VOLTAGE on the complete frame in the buffer (R132, R156). -/
def execCellVoltage (s : State) : Host.Outcome State Fault Refusal :=
  .next (cellVoltage s.buf s.emptyBuffer)

/-- IGNORE: the frame is consumed and produces no field update (R132, R158). -/
def execIgnore (s : State) : Host.Outcome State Fault Refusal := .next (ignoreFrame s.emptyBuffer)

/-- RUNT: the frame is consumed and produces no field update (R132, R159). -/
def execRunt (s : State) : Host.Outcome State Fault Refusal := .next (runtFrame s.emptyBuffer)

end Sys2Proof.Machine
end

