-- ==== Sys2Proof/Machine/Assembler.lean ====
section
/-! DEFINITION. The Frame Assembler (41_assembler.md): PUSH, and the terminating beat DISPATCH. -/

namespace Sys2Proof.Machine

/-- A beat in mode DISCARD is dropped, and the last beat of the chunk ends the mode (R134). -/
def dropBeat (last : Bool) (s : State) : State := if last then s.setMode .accum else s

/-- A beat at a full buffer: the buffer is emptied, STICKY[5] is set, and the rest of the chunk is to be
discarded (R133). -/
def overflowBeat (last : Bool) (s : State) : State :=
  if last then s.emptyBuffer.raiseOverflow else s.emptyBuffer.raiseOverflow.setMode .discard

/-- F <- buf[0..len-1]; len <- 0; DISPATCH(F), on a buffer that holds the terminating byte (R130,
R132). -/
def completeFrame (s : State) : State := dispatchFrame s.buf s.emptyBuffer

/-- A beat that is stored, and dispatches when it is terminating (R130, R131). -/
def acceptBeat (b : Byte) (last : Bool) (s : State) : State :=
  if last = true ∧ b = TERM then completeFrame (s.storeByte b) else s.storeByte b

/-- PUSH(b, last) (R130). -/
def pushBeat (b : Byte) (last : Bool) (s : State) : State :=
  match s.mode with
  | .discard => dropBeat last s
  | .accum =>
    if s.buf.length = s.cfg.bufMax then overflowBeat last s else acceptBeat b last s

/-- PUSH (R130). -/
def execPush (last : Bool) (data : Byte) (s : State) : Host.Outcome State Fault Refusal :=
  .next (pushBeat data last s)

/-- DISPATCH: the terminating beat (R131), which dispatches unless it overflows or is dropped. -/
def execDispatch (s : State) : Host.Outcome State Fault Refusal := .next (pushBeat TERM true s)

end Sys2Proof.Machine
end

