-- ==== Sys2Proof/Machine/Encoder.lean ====
section
/-! DEFINITION. The Command Encoder (40_encoder.md). -/

namespace Sys2Proof.Machine

/-- ENC: `enc_cmd` is presented, and `enc_frame` (`State.encFrame`) is the request frame of it (R120). No
element of the block's state is read or written (R123). -/
def execEnc (cmd : Byte) (s : State) : Host.Outcome State Fault Refusal := .next (s.presentCmd cmd)

end Sys2Proof.Machine
end

