-- ==== Sys2Proof/Machine/HostBus.lean ====
section
/-! DEFINITION. The host register accesses (43_host_bus.md): RD and the four WR rows. -/

namespace Sys2Proof.Machine

/-- RD(a): the view of the register at a & 0xFFFC, and nothing else (R190, R68). -/
def execRd (a : Addr) (s : State) : Host.Outcome State Fault Refusal :=
  .next (s.latchRead (regRead a s))

/-- WR(CTRL, d) (R191). -/
def execWrCtrl (imm : Imm12) (s : State) : Host.Outcome State Fault Refusal :=
  .next (ctrlWrite (immWord imm) s)

/-- WR(STATUS, d) (R192). -/
def execWrStatus (imm : Imm12) (s : State) : Host.Outcome State Fault Refusal :=
  .next (s.ackSticky (immWord imm))

/-- WR(IRQ_EN, d) (R193). -/
def execWrIrqEn (imm : Imm12) (s : State) : Host.Outcome State Fault Refusal :=
  .next (s.setIrqEn (immWord imm))

/-- WR(a, d) for every other address: no effect on any state (R194). -/
def execWrOther (s : State) : Host.Outcome State Fault Refusal := .next s

end Sys2Proof.Machine
end

