-- ==== Sys2Proof/Machine/Dispatch.lean ====
section
/-! DEFINITION. The meaning of every instruction: one arm per constructor. -/

namespace Sys2Proof.Machine

def exec (i : Instr) (s : State) : Host.Outcome State Fault Refusal :=
  match i with
  | .push last data => Sys2Proof.Machine.execPush last data s
  | .dispatch => Sys2Proof.Machine.execDispatch s
  | .basicInfo => Sys2Proof.Machine.execBasicInfo s
  | .cellVoltage => Sys2Proof.Machine.execCellVoltage s
  | .ignore _ => Sys2Proof.Machine.execIgnore s
  | .runt => Sys2Proof.Machine.execRunt s
  | .rd addr => Sys2Proof.Machine.execRd addr s
  | .wrCtrl _ imm => Sys2Proof.Machine.execWrCtrl imm s
  | .wrStatus _ imm => Sys2Proof.Machine.execWrStatus imm s
  | .wrIrqEn _ imm => Sys2Proof.Machine.execWrIrqEn imm s
  | .wrOther _ _ => Sys2Proof.Machine.execWrOther s
  | .enc cmd => Sys2Proof.Machine.execEnc cmd s

end Sys2Proof.Machine
end

