-- ==== Sys2Proof/Machine/Ports.lean ====
section
/-! DEFINITION. The ports at a clock edge (30_encoding.md rules R80 to R83; 20_memory.md rule R74), the
pins that carry each host operation (R96), and how the outside presents a transaction to the next
step. -/

namespace Sys2Proof.Machine

/-- `rx_ready`: no beat is accepted while `rst` is asserted (R241). The LATENCY window is left out
(log 9). -/
def rxReady (p : Pins) : Bool := !p.rst

/-- The bus transaction of an edge: a request is a write when `reg_we` = 1 and a read when it is 0
(R82). -/
def busTransaction (p : Pins) (s : State) : State :=
  if p.regReq then
    if p.regWe then regWrite p.regAddr p.regWdata s else s.latchRead (regRead p.regAddr s)
  else s

/-- The rx beat of an edge, accepted when `rx_valid` = 1 and `rx_ready` = 1 (R80). -/
def beatTransaction (p : Pins) (s : State) : State :=
  if p.rxValid && rxReady p then pushBeat p.rxData p.rxLast s else s

/-- One rising edge of `clk`: reset is first and ends the others; then the bus transaction; then the rx
beat (R74). The encoder port has no part in the order (R73, R241). -/
def clockEdge (p : Pins) (s : State) : State :=
  if p.rst then (s.presentCmd p.encCmd).hardReset
  else beatTransaction p (busTransaction p (s.presentCmd p.encCmd))

/-- Pins on which nothing is requested, with a level on `enc_cmd`. -/
def idlePins (cmd : Byte) : Pins :=
  { rst := false, rxValid := false, rxData := 0#8, rxLast := false, regReq := false, regWe := false,
    regAddr := 0#16, regWdata := 0#32, encCmd := cmd }

/-- The pins of an rx beat (R97). -/
def beatPins (last : Bool) (data cmd : Byte) : Pins :=
  { idlePins cmd with rxValid := true, rxData := data, rxLast := last }

/-- The pins of a bus read (R98). -/
def readPins (a : Addr) (cmd : Byte) : Pins := { idlePins cmd with regReq := true, regAddr := a }

/-- The pins of a bus write (R99). -/
def writePins (a : Addr) (d : Word) (cmd : Byte) : Pins :=
  { idlePins cmd with regReq := true, regWe := true, regAddr := a, regWdata := d }

/-- The port transaction a host operation is the notation for, `cmd` being the level already on
`enc_cmd` (R96); a frame kind is no port transaction. -/
def hostPins (cmd : Byte) : Instr → Option Pins
  | .push last data => some (beatPins last data cmd)
  | .dispatch => some (beatPins true TERM cmd)
  | .basicInfo => none
  | .cellVoltage => none
  | .ignore _ => none
  | .runt => none
  | .rd addr => some (readPins addr cmd)
  | .wrCtrl lane imm => some (writePins (laneAddr 1#14 lane) (immWord imm) cmd)
  | .wrStatus lane imm => some (writePins (laneAddr 2#14 lane) (immWord imm) cmd)
  | .wrIrqEn lane imm => some (writePins (laneAddr 3#14 lane) (immWord imm) cmd)
  | .wrOther addr imm => some (writePins addr (immWord imm) cmd)
  | .enc c => some (idlePins c)

/-- The word of the terminating beat (R97, R131). -/
def terminatingWord : Word := 0x10000177#32

/-- Presents a host transaction word as the next stimulus. -/
def presentWord (w : Word) (s : State) : State := s.setPending (.htw w :: s.pending)

/-- The bytes of a frame before its terminator, all zero but the start sentinel and the key, of the
length that makes L = 34 (R3; log 8). -/
def zeroFrame (k : Byte) : Memory := START :: k :: List.replicate 31 0#8

/-- Puts the next step at the end of a frame with key `k`: all of it but the terminator is in the
buffer, and the terminating beat is the next stimulus (log 8). -/
def presentKey (k : Byte) (s : State) : State :=
  presentWord terminatingWord { s with mode := .accum, buf := zeroFrame k }

/-- Puts the next step at the end of a frame of length 1: the buffer is empty (R159; log 8). -/
def presentRunt (s : State) : State := presentWord terminatingWord s.clearAssembler

/-- Presents the code of a table row so that the next step runs it. -/
def presentCode (c : Code) (s : State) : State :=
  match c with
  | .htw w => presentWord w s
  | .key k => presentKey k s
  | .noKey => presentRunt s

end Sys2Proof.Machine
end

