-- ==== Sys2Proof/Machine/Step.lean ====
section
/-! DEFINITION. One step: the next stimulus is taken and its transactions run, each complete before the
next (20_memory.md rules R73, R74). -/

namespace Sys2Proof.Machine

/-- One step of the block. With nothing presented the block keeps all its state (R226). A word is
decoded and run, or refused by name when it spells no host operation (R101). An edge is run as R74
orders it. -/
def step (s : State) : Host.Outcome State Fault Refusal :=
  match s.pending with
  | [] => .next s
  | .edge p :: rest => .next (clockEdge p (s.setPending rest))
  | .htw w :: rest =>
    match decodeHtw w with
    | .ok i => exec i (s.setPending rest)
    | .error e => .refused (.noHostOperation e)

/-- `s` with the instruction of a table row's bits presented as the next transaction (logs 1 and 8). -/
def State.withFetchWord (s : State) (nbits w : Nat) : State :=
  match tableCode nbits w with
  | some c => presentCode c s
  | none => s

end Sys2Proof.Machine
end

