-- ==== Sys2Proof/Machine/Pseudo.lean ====
section
/-! DEFINITION. The pseudo-instructions and their expansions (30_encoding.md rule R106). `current_state`,
whose expansion depends on what it reads, is in Machine/Snapshot.lean. -/

namespace Sys2Proof.Machine

/-- `feed b0, …, b(n−1)`: one chunk, LAST on its final byte only (R106). The empty chunk cannot be
presented (R80). -/
def feed : List Byte → List Instr
  | [] => []
  | [b] => [beatInstr true b]
  | b :: c :: rest => beatInstr false b :: feed (c :: rest)

/-- `build_request c` (R106). -/
def buildRequest (c : Byte) : List Instr := [.enc c]

/-- `clear` = `wr CTRL, 1` (R106). -/
def clear : List Instr := [writeInstr 0x0004#16 1#12]

/-- `ack m` = `wr STATUS, m`, m ≤ 0x3F (R106). -/
def ack (m : BitVec 6) : List Instr := [writeInstr 0x0008#16 (m.setWidth 12)]

/-- `irqen m` = `wr IRQ_EN, m`, m ≤ 0x3F (R106). -/
def irqen (m : BitVec 6) : List Instr := [writeInstr 0x000C#16 (m.setWidth 12)]

/-- NTC_TEMP[i]'s address (R51, R105). -/
def ntcTempAddr (i : Nat) : Addr := BitVec.ofNat 16 (0x0400 + 4 * i)

/-- CELL_MV[j]'s address (R52, R105). -/
def cellMvAddr (j : Nat) : Addr := BitVec.ofNat 16 (0x8000 + 4 * j)

/-- The basic-set registers in the order `current_state` reads them: V_TOTAL to NTC_COUNT, fifteen
words (R196). -/
def basicAddrs : List Addr := (List.range 15).map fun k => BitVec.ofNat 16 (0x0020 + 4 * k)

/-- The stimulus that presents a host operation as its word; a frame kind has no word (R96). -/
def stimulusOf (i : Instr) : List Stimulus :=
  match encode i with
  | .htw w => [.htw w]
  | _ => []

/-- The stimuli of a list of host operations, in order. -/
def stimuliOf (is : List Instr) : List Stimulus := is.flatMap stimulusOf

/-- The transactions of a chunk, run beat by beat (R73). -/
def feedChunk (c : List Byte) (s : State) : State :=
  match c with
  | [] => s
  | [b] => pushBeat b true s
  | b :: d :: rest => feedChunk (d :: rest) (pushBeat b false s)

/-- Chunks one after the other. -/
def feedChunks (cs : List (List Byte)) (s : State) : State := cs.foldl (fun t c => feedChunk c t) s

end Sys2Proof.Machine
end

