-- ==== Sys2Proof/Machine/Snapshot.lean ====
section
/-! DEFINITION. The snapshot read protocol `current_state` (43_host_bus.md rule R196): a loop of the Driver
over the register bus, run against the block while other transactions fall between its reads (R73). The
Driver has no storage of its own in the block (R11), so its progress is a structure beside State. -/

namespace Sys2Proof.Machine

/-- A Driver's progress: the block as it stands, the clock edges still to fall before each of its reads to
come (the head's before the next one; none when the list is used up; log 14), and the stimuli the block
has taken so far, oldest first. -/
structure DriverRun where
  block : State
  between : List (List Pins)
  trace : List Stimulus
  deriving DecidableEq, Repr

/-- What `current_state` returns: (st, basic, temps, cells) (R196). -/
structure Snapshot where
  /-- The STATUS word. -/
  status : Word
  /-- The fifteen words V_TOTAL to NTC_COUNT, in the order of R196. -/
  basic : List Word
  temps : List Word
  cells : List Word
  deriving DecidableEq, Repr

/-- One pass of the loop: both readings of GEN, what was read between them, and the Driver after it. -/
structure SnapshotPass where
  genBefore : Word
  genAfter : Word
  snapshot : Snapshot
  rest : DriverRun
  deriving DecidableEq, Repr

/-- The clock edges `es`, one after the other (R73, R74). -/
def runEdges (es : List Pins) (s : State) : State := es.foldl (fun t p => clockEdge p t) s

/-- RD(a) by the Driver: the edges due before it fall, then the read returns the register's view and leaves
it on `reg_rdata` (R190, R82). -/
def driverRead (a : Addr) (r : DriverRun) : Word × DriverRun :=
  let s := runEdges (r.between.headD []) r.block
  (regRead a s,
    { block := s.latchRead (regRead a s)
      between := r.between.tail
      trace := r.trace ++ (r.between.headD []).map .edge ++ stimulusOf (.rd a) })

/-- Reads of a list of addresses, in order. -/
def driverReads : List Addr → DriverRun → List Word × DriverRun
  | [], r => ([], r)
  | a :: as, r =>
    let first := driverRead a r
    let others := driverReads as first.2
    (first.1 :: others.1, others.2)

/-- NTC_COUNT as a pass reads it: the last of the fifteen basic words (R196). -/
def ntcCountRead (basic : List Word) : Nat := (basic.getD 14 0#32).toNat

/-- The addresses of NTC_TEMP[0] to NTC_TEMP[n-1] (R51). -/
def ntcTempAddrs (n : Nat) : List Addr := (List.range n).map ntcTempAddr

/-- The addresses of CELL_MV[0] to CELL_MV[n-1] (R52). -/
def cellMvAddrs (n : Nat) : List Addr := (List.range n).map cellMvAddr

/-- One pass of the loop of R196: as many temperatures and cells are read as the counts the pass itself
read say. -/
def snapshotPass (r : DriverRun) : SnapshotPass :=
  let g0 := driverRead 0x0018#16 r
  let st := driverRead 0x0008#16 g0.2
  let basic := driverReads basicAddrs st.2
  let temps := driverReads (ntcTempAddrs (ntcCountRead basic.1)) basic.2
  let ncell := driverRead 0x005C#16 temps.2
  let cells := driverReads (cellMvAddrs ncell.1.toNat) ncell.2
  let g1 := driverRead 0x0018#16 cells.2
  { genBefore := g0.1
    genAfter := g1.1
    snapshot := { status := st.1, basic := basic.1, temps := temps.1, cells := cells.1 }
    rest := g1.2 }

/-- The loop of R196 for at most `n` passes: a pass whose two readings of GEN are equal is returned, and any
other is thrown away and repeated. -/
def snapshotLoop : Nat → DriverRun → Option (Snapshot × DriverRun)
  | 0, _ => none
  | n + 1, r =>
    let p := snapshotPass r
    if p.genBefore = p.genAfter then some (p.snapshot, p.rest) else snapshotLoop n p.rest

/-- `current_state()` (R106, R196). A pass uses up `between` by one entry for each read, and one that finds it
used up meets no commit, so the loop ends within that many passes and one (log 14). -/
def currentState (r : DriverRun) : Option (Snapshot × DriverRun) := snapshotLoop (r.between.length + 1) r

end Sys2Proof.Machine
end

