-- ==== Sys2Proof/Safety.lean ====
section
/-! DEFINITION. What the statements speak of: the invariant of the state, a frame's validity, the parts
of the state a host may and may not change. -/

namespace Sys2Proof.Machine

/-- F passes every Basic Info check (R153). -/
abbrev ValidBasic (f : Memory) : Prop :=
  34 ≤ f.length ∧ frameByte f 0 = 0xDD#8 ∧ frameByte f 2 = 0x00#8 ∧ 27 + 2 * (frameByte f 26).toNat ≤ f.length

/-- F passes the Cell Voltage check (R156). -/
abbrev ValidCells (f : Memory) : Prop := 7 ≤ f.length

/-- What the last-frame and status-byte records say agrees with the cause table (R210, R23, R24). -/
abbrev RecordOk (cap : Nat) (last : LastFrame) (stat : StatRecord) : Prop :=
  last.len.toNat ≤ cap ∧
  (last.keyValid = true ↔ 2 ≤ last.len.toNat) ∧
  (last.keyValid = false → last.key = 0#8) ∧
  (stat.valid = true ↔ 3 ≤ last.len.toNat) ∧
  (stat.valid = false → stat.byte = 0#8) ∧
  match last.result with
  | .none => last.len = 0#16
  | .basicOk => last.key = 0x03#8 ∧ 34 ≤ last.len.toNat ∧ stat.byte = 0#8
  | .cellOk => last.key = 0x04#8 ∧ 7 ≤ last.len.toNat
  | .ignored => last.keyValid = true ∧ last.key ≠ 0x03#8 ∧ last.key ≠ 0x04#8
  | .invalidShort =>
    (last.key = 0x03#8 ∧ last.len.toNat < 34 ∨ last.key = 0x04#8 ∧ last.len.toNat ≤ 6) ∧ last.keyValid = true
  | .invalidStart => last.key = 0x03#8 ∧ 34 ≤ last.len.toNat
  | .deviceError => last.key = 0x03#8 ∧ 34 ≤ last.len.toNat ∧ stat.byte ≠ 0#8
  | .invalidNtc => last.key = 0x03#8 ∧ 34 ≤ last.len.toNat ∧ stat.byte = 0#8
  | .runt => last.len = 1#16

/-- The basic field set holds the values of one complete successfully decoded Basic Info frame that fits
the buffer, or its reset values (R160). -/
def BasicOk (cap : Nat) (b : BasicSet) : Prop :=
  (b.valid = false ∧ b = BasicSet.empty) ∨
  (b.valid = true ∧ ∃ f : Memory, ValidBasic f ∧ f.length ≤ cap ∧ b = basicOf f)

/-- The same of the cell field set (R160). -/
def CellsOk (cap : Nat) (c : CellSet) : Prop :=
  (c.valid = false ∧ c = CellSet.empty) ∨
  (c.valid = true ∧ ∃ f : Memory, ValidCells f ∧ f.length ≤ cap ∧ c = cellsOf f)

/-- The invariant of the block: the parameter in its range (R5), the buffer within BUF_MAX (R13), empty
in DISCARD (R134), the records and both field sets as above, and a generation counter that has counted
only while its set is valid (R18, R19, R25). -/
structure Inv (s : State) : Prop where
  config : s.cfg.Wf
  buffer : Memory.wf s.cfg.bufMax s.buf = true
  discard : s.mode = .discard → s.buf = []
  record : RecordOk s.cfg.bufMax s.last s.stat
  basic : BasicOk s.cfg.bufMax s.basic
  cells : CellsOk s.cfg.bufMax s.cells
  basicGen : s.basic.valid = false → s.basicGen = 0#16
  cellGen : s.cells.valid = false → s.cellGen = 0#16

/-- The decoded-field state, which no host access changes (R194). -/
abbrev SameFields (s t : State) : Prop :=
  t.basic = s.basic ∧ t.cells = s.cells ∧ t.basicGen = s.basicGen ∧ t.cellGen = s.cellGen

/-- The records and bookkeeping outside the decoded fields. -/
abbrev SameRecords (s t : State) : Prop :=
  t.last = s.last ∧ t.stat = s.stat

/-- What belongs to the outside or is fixed: the parameter, the encoder's input, the stimuli to come, the
last value read. -/
abbrev SameOutside (s t : State) : Prop :=
  t.cfg = s.cfg ∧ t.encCmd = s.encCmd ∧ t.pending = s.pending ∧ t.readData = s.readData

/-- The stimulus asserts reset. -/
def Stimulus.isReset : Stimulus → Bool
  | .htw _ => false
  | .edge p => p.rst

/-- The operations a host performs on the register bus and the encoder port; the others come from the rx
port (R10). -/
def hostOperation : Instr → Bool
  | .push _ _ => false
  | .dispatch => false
  | .basicInfo => false
  | .cellVoltage => false
  | .ignore _ => false
  | .runt => false
  | .rd _ => true
  | .wrCtrl _ _ => true
  | .wrStatus _ _ => true
  | .wrIrqEn _ _ => true
  | .wrOther _ _ => true
  | .enc _ => true

/-- Instructions run one after the other, stopping at the first that has no next state. -/
def execAll : List Instr → State → Host.Outcome State Fault Refusal
  | [], s => .next s
  | i :: is, s =>
    match exec i s with
    | .next t => execAll is t
    | .fault r => .fault r
    | .refused r => .refused r

/-- `n` steps, stopping at the first that has no next state. -/
def runSteps : Nat → State → Host.Outcome State Fault Refusal
  | 0, s => .next s
  | n + 1, s =>
    match step s with
    | .next t => runSteps n t
    | .fault r => .fault r
    | .refused r => .refused r

/-- The 16-bit value at offset `i` of a frame in the numbers of R90, F[i] · 256 + F[i+1], for the
statements to say what a field is without the extractor's own words. -/
def u16At (f : Memory) (i : Nat) : Nat := (f.getD i 0#8).toNat * 256 + (f.getD (i + 1) 0#8).toNat

/-- The result code of a frame as the cause table gives it (R210, R217). -/
def resultOf (f : Memory) : ResultCode :=
  if f.length = 1 then .runt
  else if f.getD 1 0#8 = 0x03#8 then
    if f.length < 34 then .invalidShort
    else if f.getD 0 0#8 ≠ 0xDD#8 then .invalidStart
    else if f.getD 2 0#8 ≠ 0x00#8 then .deviceError
    else if 27 + 2 * (f.getD 26 0#8).toNat > f.length then .invalidNtc
    else .basicOk
  else if f.getD 1 0#8 = 0x04#8 then if f.length ≤ 6 then .invalidShort else .cellOk
  else .ignored

/-- The number of the STICKY bit of each result as the table of R211 gives it; NONE has none. -/
def stickyIndex : ResultCode → Option Nat
  | .none => .none
  | .basicOk => some 0
  | .cellOk => some 1
  | .ignored => some 2
  | .runt => some 2
  | .invalidShort => some 3
  | .invalidStart => some 3
  | .invalidNtc => some 3
  | .deviceError => some 4

/-- The bytes from word address `w` up to `w + 3` reach the register at `w` (R64). -/
abbrev Reaches (a : Addr) (w : Nat) : Prop := a.toNat / 4 * 4 = w

end Sys2Proof.Machine
end

