-- ==== Sys2Proof/Certificates/Slice0/Obligations.lean ====
section
/-! DEFINITION. The statements for the provers. Each docstring names the rule of spec/ the statement
formalises, or the log entry it rests on. -/

open Sys2Proof Sys2Proof.Machine

/-! ## Encoding (30_encoding.md section 4) -/

/-- Decoding an encoded well-formed instruction gives it back, with every operand (R96 to R102). -/
def Obligations.DecodeOfEncodeIsTheInstruction : Prop :=
  ∀ i : Instr, i.wellFormed = true → decode (encode i) = .ok i

/-- Each word, key and keyless frame has one reading: what the decoder reads is well formed and encodes
to the same code (R96 to R102). -/
def Obligations.EncodeOfDecodeIsTheCode : Prop :=
  ∀ (c : Code) (i : Instr), decode c = .ok i → i.wellFormed = true ∧ encode i = c

/-- The words that spell no host operation are exactly those of R101's list, and a step that meets one
refuses it by name. -/
def Obligations.ExactlyReservedWordsAreRefused : Prop :=
  ∀ w : Word,
    (w.toNat / 2 ^ 28 = 0 ∨ 5 ≤ w.toNat / 2 ^ 28 ∨
      (w.toNat / 2 ^ 28 = 1 ∧ w.toNat / 2 ^ 9 % 2 ^ 19 ≠ 0) ∨
      (w.toNat / 2 ^ 28 = 2 ∧ w.toNat % 2 ^ 12 ≠ 0) ∨
      (w.toNat / 2 ^ 28 = 4 ∧ w.toNat / 2 ^ 8 % 2 ^ 20 ≠ 0)) ↔
    ∀ (s : State) (rest : List Stimulus), s.pending = .htw w :: rest →
      ∃ e, step s = .refused (.noHostOperation e)

/-- Every one of the 256 keys selects its frame kind, and a frame of one byte is a runt (R102). -/
def Obligations.EveryKeySelectsItsFrameKind : Prop :=
  ∀ f : Memory, f ≠ [] →
    (f.length < 2 → decode (frameCode f) = .ok .runt) ∧
    (2 ≤ f.length → f.getD 1 0#8 = 0x03#8 → decode (frameCode f) = .ok .basicInfo) ∧
    (2 ≤ f.length → f.getD 1 0#8 = 0x04#8 → decode (frameCode f) = .ok .cellVoltage) ∧
    (2 ≤ f.length → f.getD 1 0#8 ≠ 0x03#8 → f.getD 1 0#8 ≠ 0x04#8 →
      decode (frameCode f) = .ok (.ignore (f.getD 1 0#8)))

/-- Words written out from the formats of R97 to R100 and keys from R102 decode to what they stand for.
That the word 0x10000177, which matches the rows PUSH and DISPATCH, decodes to DISPATCH (clause 3) is the
model's choice (log 7). -/
def Obligations.WordsFromTheFormatsDecode : Prop :=
  decode (.htw 0b0001_0000000000000000000_0_11011101#32) = .ok (.push false 0xDD#8) ∧
  decode (.htw 0b0001_0000000000000000000_1_00010011#32) = .ok (.push true 0x13#8) ∧
  decode (.htw 0b0001_0000000000000000000_1_01110111#32) = .ok .dispatch ∧
  decode (.htw 0b0010_0000000000100100_000000000000#32) = .ok (.rd 0x0024#16) ∧
  decode (.htw 0b0011_00000000000001_00_000000000001#32) = .ok (.wrCtrl 0#2 1#12) ∧
  decode (.htw 0b0011_00000000000010_11_000000100000#32) = .ok (.wrStatus 3#2 0x020#12) ∧
  decode (.htw 0b0011_00000000000011_01_000000011000#32) = .ok (.wrIrqEn 1#2 0x018#12) ∧
  decode (.htw 0b0011_0000000000100000_111111111111#32) = .ok (.wrOther 0x0020#16 0xFFF#12) ∧
  decode (.htw 0b0100_00000000000000000000_00000011#32) = .ok (.enc 0x03#8) ∧
  decode (.key 0b00000011#8) = .ok .basicInfo ∧
  decode (.key 0b00000100#8) = .ok .cellVoltage ∧
  decode (.key 0b01110111#8) = .ok (.ignore 0x77#8)

/-! ## Steps and ports (20_memory.md section 6, 30_encoding.md section 1) -/

/-- A step on a word that decodes runs the decoded instruction on the state without that word (R73). -/
def Obligations.StepRunsTheDecodedWord : Prop :=
  ∀ (s : State) (w : Word) (rest : List Stimulus) (i : Instr),
    s.pending = .htw w :: rest → decode (.htw w) = .ok i →
    step s = exec i { s with pending := rest }

/-- A step on a terminating beat that is stored runs, in the same transaction, the frame kind the decoder
reads from the completed buffer, on the state with the dispatch's records written (R131, R132, R150). -/
def Obligations.TerminatingStepRunsTheDecodedFrameKind : Prop :=
  ∀ (s : State) (rest : List Stimulus) (f : Memory) (i : Instr),
    s.pending = .htw 0x10000177#32 :: rest → s.mode = .accum → s.buf.length < s.cfg.bufMax →
    f = s.buf ++ [0x77#8] → decode (frameCode f) = .ok i →
    step s = exec i { s with
      pending := rest
      buf := f
      last := { result := s.last.result
                len := BitVec.ofNat 16 f.length
                keyValid := decide (f.length ≥ 2)
                key := if f.length ≥ 2 then f.getD 1 0#8 else 0#8 }
      stat := { valid := decide (f.length ≥ 3)
                byte := if f.length ≥ 3 then f.getD 2 0#8 else 0#8 } }

/-- Every step has a next state but one on a word that spells no host operation; with nothing presented
the block keeps all its state (R226, R136). The idle step is the model's choice (log 1). -/
def Obligations.OnlyReservedWordsStopAStep : Prop :=
  ∀ s : State,
    (s.pending = [] → step s = .next s) ∧
    ((∃ t, step s = .next t) ∨
      ∃ w rest e, s.pending = .htw w :: rest ∧ decode (.htw w) = .error e ∧
        step s = .refused (.noHostOperation e))

/-- On one clock edge without reset the bus transaction is first and the beat second: the edge does what
an edge with the bus alone followed by an edge with the beat alone do (R74). -/
def Obligations.SameEdgeBusThenBeat : Prop :=
  ∀ (s : State) (p : Pins) (rest : List Stimulus), p.rst = false → s.pending = .edge p :: rest →
    step s = runSteps 2 { s with
      pending := .edge { p with rxValid := false } :: .edge { p with regReq := false } :: rest }

/-- A W1C write and an event that sets the same STICKY bit on the same edge leave the bit set (R74): the
bits the beat alone sets, from STICKY all clear, are set after the edge. -/
def Obligations.SameEdgeEventOutlivesAcknowledge : Prop :=
  ∀ (s t u : State) (p : Pins) (rest : List Stimulus) (k : Nat),
    p.rst = false → p.regReq = true → p.regWe = true → Reaches p.regAddr 0x0008 → p.rxValid = true →
    s.pending = .edge p :: rest → step s = .next t →
    step { s with sticky := 0#6, pending := .edge { p with regReq := false } :: rest } = .next u →
    u.sticky.getLsbD k = true → t.sticky.getLsbD k = true

/-- A CLEAR_ASM write on the same edge as a beat clears the buffer before the beat is appended (R74):
a beat that does not terminate is the whole buffer afterwards. -/
def Obligations.SameEdgeClearThenStore : Prop :=
  ∀ (s : State) (p : Pins) (rest : List Stimulus),
    s.cfg.Wf → p.rst = false → p.regReq = true → p.regWe = true → Reaches p.regAddr 0x0004 →
    p.regWdata.getLsbD 0 = true → p.rxValid = true → ¬(p.rxLast = true ∧ p.rxData = 0x77#8) →
    s.pending = .edge p :: rest →
    step s = .next { s with buf := [p.rxData], mode := .accum, encCmd := p.encCmd, pending := rest }

/-- A host transaction word is the notation for one transaction at one port: running the instruction is
running an edge with that transaction's pins alone (R96). -/
def Obligations.WordsAreNotationForPortTransactions : Prop :=
  ∀ (s t : State) (i : Instr) (p : Pins) (rest : List Stimulus),
    i.wellFormed = true → hostPins s.encCmd i = some p → t = { s with pending := .edge p :: rest } →
    step t = exec i { s with pending := rest }

/-- An edge with `rst` asserted sets every element to its reset value, discards the edge's other
transactions, and leaves the parameter and the encoder's input alone (R240, R241, R74). That `readData` is
0 after it and that the stimuli to come stay is the model's choice where no read is requested (log 11). -/
def Obligations.ResetEdgeResetsAndDiscards : Prop :=
  ∀ (s : State) (p : Pins) (rest : List Stimulus), p.rst = true → s.pending = .edge p :: rest →
    ∃ t, step s = .next t ∧ t.buf = [] ∧ t.mode = .accum ∧
      t.basic = { vTotal := 0#16, iCurr := 0#16, capRes := 0#16, capNom := 0#16, cycles := 0#16,
                  mfgRaw := 0#16, balLo := 0#16, balHi := 0#16, prot := 0#16, version := 0#8,
                  rsoc := 0#8, fet := 0#8, cellBlocks := 0#8, ntcN := 0#8, ntc := [], valid := false } ∧
      t.cells = { cell := [], cellN := 0, valid := false } ∧
      t.sticky = 0#6 ∧ t.irqEn = 0#6 ∧
      t.last = { result := .none, key := 0#8, keyValid := false, len := 0#16 } ∧
      t.stat = { byte := 0#8, valid := false } ∧ t.basicGen = 0#16 ∧ t.cellGen = 0#16 ∧
      t.readData = 0#32 ∧ t.irq = false ∧
      t.cfg = s.cfg ∧ t.encCmd = p.encCmd ∧ t.pending = rest

/-! ## The encoder (40_encoder.md) -/

/-- ENC yields the seven bytes of R84 with the checksum (0xFF − ((c − 1) mod 2^8)) mod 2^8, byte k in bits
[55−8k : 48−8k], and reads and writes no element of the state (R84, R120). -/
def Obligations.EncYieldsTheRequestFrame : Prop :=
  ∀ (c : Byte) (s : State), ∃ t, exec (.enc c) s = .next t ∧
    t = { s with encCmd := c } ∧
    ∀ k < 7, (t.encFrame.extractLsb' (48 - 8 * k) 8).toNat =
      [0xDD, 0xA5, c.toNat, 0x00, 0xFF, (0xFF - (c.toNat + 255) % 256) % 256, 0x77].getD k 0

/-- The checksum byte is the two's-complement negation of the command code, and the two add up to 0 modulo
256 (R121). -/
def Obligations.ChecksumNegatesTheCommand : Prop :=
  ∀ (c : Byte) (s t : State), exec (.enc c) s = .next t →
    (t.encFrame.extractLsb' 8 8).toNat = (256 - c.toNat) % 256 ∧
    t.encFrame.extractLsb' 8 8 = ~~~c + 1#8 ∧
    (c.toNat + (t.encFrame.extractLsb' 8 8).toNat) % 256 = 0

/-- Bytes 4 and 5 of the request read together are 0x10000 − c, and 0xFF00 for c = 0 (R122). -/
def Obligations.ChecksumPairIsSixteenBitNegation : Prop :=
  ∀ (c : Byte) (s t : State), exec (.enc c) s = .next t →
    t.encFrame.extractLsb' 8 16 = 0xFF00#16 ||| (t.encFrame.extractLsb' 8 8).setWidth 16 ∧
    (1 ≤ c.toNat → (t.encFrame.extractLsb' 8 16).toNat = 0x10000 - c.toNat) ∧
    (c.toNat = 0 → (t.encFrame.extractLsb' 8 16).toNat = 0xFF00)

/-- The encoder and the rest of the block do not touch each other: ENC's output is the same from any two
states, and no other instruction changes the output (R123). -/
def Obligations.EncoderIsIndependent : Prop :=
  (∀ (c : Byte) (s₁ s₂ t₁ t₂ : State),
    exec (.enc c) s₁ = .next t₁ → exec (.enc c) s₂ = .next t₂ → t₁.encFrame = t₂.encFrame) ∧
  (∀ (i : Instr) (s t : State), (∀ c, i ≠ .enc c) → exec i s = .next t → t.encFrame = s.encFrame)

/-! ## The assembler (41_assembler.md) -/

/-- In ACCUM with room, a beat that does not terminate is stored as byte len of the buffer; every other
byte of it and every other part of the state is unchanged (R130). -/
def Obligations.PushStoresTheByte : Prop :=
  ∀ (s : State) (last : Bool) (b : Byte),
    s.mode = .accum → s.buf.length < s.cfg.bufMax → ¬(last = true ∧ b = 0x77#8) →
    ∃ t, exec (.push last b) s = .next t ∧ t.buf.length = s.buf.length + 1 ∧
      Memory.read t.buf s.buf.length = some b ∧
      (∀ a, a ≠ s.buf.length → Memory.read t.buf a = Memory.read s.buf a) ∧
      { t with buf := s.buf } = s

/-- A beat accepted in ACCUM at a full buffer empties it, sets STICKY[5], drops the byte, and enters DISCARD
when it is not the last of its chunk; nothing is dispatched and nothing else changes (R133). -/
def Obligations.FullBufferOverflows : Prop :=
  ∀ (s : State) (last : Bool) (b : Byte), s.mode = .accum → s.buf.length = s.cfg.bufMax →
    exec (.push last b) s = .next { s with
      buf := []
      sticky := s.sticky ||| 0b100000#6
      mode := if last then .accum else .discard } ∧
    exec .dispatch s = .next { s with buf := [], sticky := s.sticky ||| 0b100000#6 }

/-- In DISCARD every beat is dropped, the last beat of the chunk ends the mode, the beat after it is stored
as buf[0] (and is a frame of its own when it terminates), and while the mode is DISCARD len is 0: a step keeps it so from every state in which the buffer
respects it (R134). -/
def Obligations.DiscardDropsToTheEndOfTheChunk : Prop :=
  (∀ (s : State) (b : Byte), s.mode = .discard → exec (.push false b) s = .next s) ∧
  (∀ (s : State) (b : Byte), s.mode = .discard →
    exec (.push true b) s = .next { s with mode := .accum } ∧
    exec .dispatch s = .next { s with mode := .accum }) ∧
  (∀ (s : State) (b : Byte), s.cfg.Wf → s.mode = .discard → s.buf = [] →
    (∀ (last : Bool) (c : Byte), ¬(last = true ∧ c = 0x77#8) →
      execAll [.push true b, .push last c] s = .next { s with mode := .accum, buf := [c] }) ∧
    execAll [.push true b, .dispatch] s = .next (dispatchFrame [0x77#8] { s with mode := .accum })) ∧
  (∀ s t : State, (s.mode = .discard → s.buf = []) → step s = .next t → t.mode = .discard → t.buf = [])

/-- The terminating beat, when stored, dispatches the ENTIRE buffer with its terminator: the buffer is
empty afterwards whatever the outcome, the records hold the frame's length, key and status byte, the result
and the STICKY bit are those of the cause table, and mode, enables and everything outside are unchanged
(R131, R132, R150, R210, R211). -/
def Obligations.TerminatingBeatDispatchesTheBuffer : Prop :=
  ∀ (s : State) (f : Memory), s.mode = .accum → s.buf.length < s.cfg.bufMax → f = s.buf ++ [0x77#8] →
    ∃ t, exec .dispatch s = .next t ∧ t.buf = [] ∧ t.mode = .accum ∧
      t.last.result = resultOf f ∧ t.last.len = BitVec.ofNat 16 f.length ∧
      (t.last.keyValid = true ↔ 2 ≤ f.length) ∧
      t.last.key = (if 2 ≤ f.length then f.getD 1 0#8 else 0#8) ∧
      (t.stat.valid = true ↔ 3 ≤ f.length) ∧
      t.stat.byte = (if 3 ≤ f.length then f.getD 2 0#8 else 0#8) ∧
      (∀ k, t.sticky.getLsbD k = true ↔ s.sticky.getLsbD k = true ∨ stickyIndex (resultOf f) = some k) ∧
      t.irqEn = s.irqEn ∧ SameOutside s t

/-- Only terminating beats complete frames: every other instruction a step runs, a beat that is not
terminating among them, leaves the decoded fields, the counters and the records as they were (R131). -/
def Obligations.OnlyTerminatingBeatsCompleteFrames : Prop :=
  ∀ (w : Word) (i : Instr) (s t : State), decode (.htw w) = .ok i → exec i s = .next t →
    ¬(i = .dispatch ∧ s.mode = .accum ∧ s.buf.length ≠ s.cfg.bufMax) →
    SameFields s t ∧ SameRecords s t

/-- A chunk that ends in the terminator, fed into an empty buffer it fits, makes exactly one dispatch, of
the whole chunk (R131, R132, R139). -/
def Obligations.OneChunkIsOneDispatch : Prop :=
  ∀ (s : State) (f : Memory), s.mode = .accum → s.buf = [] → f.length ≤ s.cfg.bufMax →
    f.getLast? = some 0x77#8 → feedChunk f s = dispatchFrame f s

/-- Fragmentation invariance: split into non-empty chunks, a sequence that ends in the terminator gives the
same final state as in one chunk exactly when no chunk but the last ends with 0x77 (R139). -/
def Obligations.FragmentationInvariance : Prop :=
  ∀ (s : State) (cs : List (List Byte)), s.cfg.Wf → s.mode = .accum → s.buf = [] →
    (∀ c ∈ cs, c ≠ []) → cs.flatten.length ≤ s.cfg.bufMax → cs.flatten.getLast? = some 0x77#8 →
    (feedChunks cs s = feedChunk cs.flatten s ↔ ∀ c ∈ cs.dropLast, c.getLast? ≠ some 0x77#8)

/-- The pseudo-instruction `feed` presented as its words runs the beats of its chunk one by one (R106,
R73). -/
def Obligations.FeedRunsItsBeats : Prop :=
  ∀ (c : List Byte) (s t : State) (rest : List Stimulus),
    t = { s with pending := stimuliOf (feed c) ++ rest } →
    runSteps c.length t = .next { feedChunk c s with pending := rest }

/-! ## The decoder (42_decoder.md) -/

/-- A Basic Info frame that passes the four checks commits the whole basic set from the offsets of R86 in
big-endian order, counts BASIC_GEN up modulo 2^16, records BASIC_OK, sets BASIC_DONE, and touches nothing
else; the frame is consumed (R152, R154, R155). Reading the frame from the buffer is log 6. -/
def Obligations.BasicInfoCommits : Prop :=
  ∀ (s : State) (f : Memory), f = s.buf → ValidBasic f →
    ∃ t, exec .basicInfo s = .next t ∧
      t.basic.vTotal.toNat = u16At f 4 ∧
      t.basic.iCurr.toInt = (if u16At f 6 ≥ 32768 then (u16At f 6 : Int) - 65536 else u16At f 6) ∧
      t.basic.capRes.toNat = u16At f 8 ∧ t.basic.capNom.toNat = u16At f 10 ∧
      t.basic.cycles.toNat = u16At f 12 ∧ t.basic.mfgRaw.toNat = u16At f 14 ∧
      t.basic.balLo.toNat = u16At f 16 ∧ t.basic.balHi.toNat = u16At f 18 ∧
      t.basic.prot.toNat = u16At f 20 ∧ t.basic.version = f.getD 22 0#8 ∧
      t.basic.rsoc = f.getD 23 0#8 ∧ t.basic.fet = f.getD 24 0#8 ∧
      t.basic.cellBlocks = f.getD 25 0#8 ∧ t.basic.ntcN = f.getD 26 0#8 ∧
      t.basic.ntc.length = (f.getD 26 0#8).toNat ∧
      (∀ k < (f.getD 26 0#8).toNat, (t.basic.ntc.getD k 0#16).toNat = u16At f (27 + 2 * k)) ∧
      t.basic.valid = true ∧ t.basicGen.toNat = (s.basicGen.toNat + 1) % 65536 ∧
      { t with basic := s.basic, basicGen := s.basicGen } =
        { s with
          buf := []
          last := { s.last with result := .basicOk }
          sticky := s.sticky ||| 0b000001#6 }

/-- A Basic Info frame that fails a check gives the outcome of the FIRST that fails, in the order length,
start sentinel, status, NTC extent, and changes only LAST_RESULT and one STICKY bit; the frame is consumed
(R153, R151). Reading the frame from the buffer is log 6. -/
def Obligations.BasicInfoFirstFailingCheckWins : Prop :=
  ∀ (s : State) (f : Memory) (code : ResultCode) (bit : BitVec 6), f = s.buf →
    (f.length < 34 ∧ code = .invalidShort ∧ bit = 0b001000#6) ∨
    (34 ≤ f.length ∧ f.getD 0 0#8 ≠ 0xDD#8 ∧ code = .invalidStart ∧ bit = 0b001000#6) ∨
    (34 ≤ f.length ∧ f.getD 0 0#8 = 0xDD#8 ∧ f.getD 2 0#8 ≠ 0x00#8 ∧ code = .deviceError ∧
      bit = 0b010000#6) ∨
    (34 ≤ f.length ∧ f.getD 0 0#8 = 0xDD#8 ∧ f.getD 2 0#8 = 0x00#8 ∧
      f.length < 27 + 2 * (f.getD 26 0#8).toNat ∧ code = .invalidNtc ∧ bit = 0b001000#6) →
    exec .basicInfo s = .next { s with
      buf := []
      last := { s.last with result := code }
      sticky := s.sticky ||| bit }

/-- A Cell Voltage frame longer than 6 bytes commits floor((L − 7) / 2) values from offset 4 stepping by 2,
none of which includes a trailer byte, counts CELL_GEN up, records CELL_OK, sets CELL_DONE, and touches
nothing else; the frame is consumed (R156, R157). Reading the frame from the buffer is log 6. -/
def Obligations.CellVoltageCommits : Prop :=
  ∀ (s : State) (f : Memory), f = s.buf → f.length > 6 →
    ∃ t, exec .cellVoltage s = .next t ∧
      t.cells.cellN = (f.length - 7) / 2 ∧ t.cells.cell.length = t.cells.cellN ∧
      (∀ j < t.cells.cellN, (t.cells.cell.getD j 0#16).toNat = u16At f (4 + 2 * j) ∧
        5 + 2 * j < f.length - 3) ∧
      t.cells.valid = true ∧ t.cellGen.toNat = (s.cellGen.toNat + 1) % 65536 ∧
      { t with cells := s.cells, cellGen := s.cellGen } =
        { s with
          buf := []
          last := { s.last with result := .cellOk }
          sticky := s.sticky ||| 0b000010#6 }

/-- A Cell Voltage frame of at most 6 bytes is INVALID_SHORT and commits nothing (R156). Reading the frame
from the buffer is log 6. -/
def Obligations.ShortCellVoltageIsInvalid : Prop :=
  ∀ s : State, s.buf.length ≤ 6 →
    exec .cellVoltage s = .next { s with
      buf := []
      last := { s.last with result := .invalidShort }
      sticky := s.sticky ||| 0b001000#6 }

/-- IGNORE and RUNT record their result and set STICKY[2]; no field changes (R158, R159). That the frame is
taken from the buffer is log 6. -/
def Obligations.IgnoreAndRuntChangeNoField : Prop :=
  ∀ (s : State) (k : Byte),
    exec (.ignore k) s = .next { s with
      buf := []
      last := { s.last with result := .ignored }
      sticky := s.sticky ||| 0b000100#6 } ∧
    exec .runt s = .next { s with
      buf := []
      last := { s.last with result := .runt }
      sticky := s.sticky ||| 0b000100#6 }

/-- Outcomes are precise: after a dispatch that commits nothing the state is the state before the
terminating beat but for len = 0, the records and one STICKY bit (R219). -/
def Obligations.FailedDispatchIsPrecise : Prop :=
  ∀ s t : State, s.mode = .accum → s.buf.length < s.cfg.bufMax → exec .dispatch s = .next t →
    t.last.result ≠ .basicOk → t.last.result ≠ .cellOk →
    t.buf = [] ∧ { t with buf := s.buf, last := s.last, stat := s.stat, sticky := s.sticky } = s ∧
    ∃ k, k < 6 ∧ stickyIndex t.last.result = some k ∧ t.sticky = s.sticky ||| (1#6 <<< k)

/-- A decode's result depends only on the frame: two dispatches of the same frame give the same result and
records, and write the same field values when they commit (R162). -/
def Obligations.DecodeDependsOnTheFrameOnly : Prop :=
  ∀ s₁ s₂ t₁ t₂ : State,
    s₁.mode = .accum → s₂.mode = .accum → s₁.buf.length < s₁.cfg.bufMax →
    s₂.buf.length < s₂.cfg.bufMax → s₁.buf = s₂.buf →
    exec .dispatch s₁ = .next t₁ → exec .dispatch s₂ = .next t₂ →
    t₁.last = t₂.last ∧ t₁.stat = t₂.stat ∧
    (t₁.last.result = .basicOk → t₁.basic = t₂.basic) ∧
    (t₁.last.result = .cellOk → t₁.cells = t₂.cells)

/-- A step that is not a reset commits at most one field set: each set either stays with its counter, or is
replaced wholesale by the values of one valid frame while its counter counts up by one, its result and its
STICKY bit are written and the other set and counter stay (R20, R25, R75, R160). -/
def Obligations.CommitIsAtomicAndCounted : Prop :=
  ∀ s t : State, step s = .next t → (∀ p rest, s.pending = .edge p :: rest → p.rst = false) →
    SameFields s t ∨
    (t.basicGen = s.basicGen + 1#16 ∧ t.last.result = .basicOk ∧ t.sticky.getLsbD 0 = true ∧
      t.cells = s.cells ∧ t.cellGen = s.cellGen ∧ ∃ f, ValidBasic f ∧ t.basic = basicOf f) ∨
    (t.cellGen = s.cellGen + 1#16 ∧ t.last.result = .cellOk ∧ t.sticky.getLsbD 1 = true ∧
      t.basic = s.basic ∧ t.basicGen = s.basicGen ∧ ∃ f, ValidCells f ∧ t.cells = cellsOf f)

/-! ## The register interface (43_host_bus.md, 10_state.md section 5) -/

/-- RD of PARAM, CTRL, STATUS, IRQ_EN, LAST_FRAME, LAST_STAT and GEN returns the layouts of R28 to R34, at
each of the four byte addresses of a register, and changes nothing but the value returned. The invariant
bounds len and the parameter to their fields. -/
def Obligations.ReadBookkeepingRegisters : Prop :=
  ∀ (s : State) (a : Addr), Inv s →
    ∃ v : Word, exec (.rd a) s = .next { s with readData := v } ∧
      (Reaches a 0x0000 → v.toNat = s.cfg.cellMax * 65536 + s.cfg.bufMax) ∧
      (Reaches a 0x0004 → v.toNat = 0) ∧
      (Reaches a 0x0008 → v.toNat = s.buf.length * 65536 + (if s.mode = .discard then 4096 else 0) +
        s.cells.valid.toNat * 512 + s.basic.valid.toNat * 256 + s.sticky.toNat) ∧
      (Reaches a 0x000C → v.toNat = s.irqEn.toNat) ∧
      (Reaches a 0x0010 → v.toNat = s.last.len.toNat * 65536 + s.last.key.toNat * 256 +
        s.last.keyValid.toNat * 128 + (resultNumber s.last.result).toNat) ∧
      (Reaches a 0x0014 → v.toNat = s.stat.valid.toNat * 256 + s.stat.byte.toNat) ∧
      (Reaches a 0x0018 → v.toNat = s.cellGen.toNat * 65536 + s.basicGen.toNat)

/-- RD of the field registers returns the raw fields zero-extended, the current sign-extended (R35 to R39,
R41 to R50), and changes nothing but the value returned. The invariant bounds CELL_N to its field. -/
def Obligations.ReadFieldRegisters : Prop :=
  ∀ (s : State) (a : Addr), Inv s →
    ∃ v : Word, exec (.rd a) s = .next { s with readData := v } ∧
      (Reaches a 0x0020 → v.toNat = s.basic.vTotal.toNat) ∧
      (Reaches a 0x0024 → v.toInt = s.basic.iCurr.toInt) ∧
      (Reaches a 0x0028 → v.toNat = s.basic.capRes.toNat) ∧
      (Reaches a 0x002C → v.toNat = s.basic.capNom.toNat) ∧
      (Reaches a 0x0030 → v.toNat = s.basic.cycles.toNat) ∧
      (Reaches a 0x0038 → v.toNat = s.basic.mfgRaw.toNat) ∧
      (Reaches a 0x003C → v.toNat = s.basic.balLo.toNat) ∧
      (Reaches a 0x0040 → v.toNat = s.basic.balHi.toNat) ∧
      (Reaches a 0x0044 → v.toNat = s.basic.prot.toNat) ∧
      (Reaches a 0x0048 → v.toNat = s.basic.version.toNat) ∧
      (Reaches a 0x004C → v.toNat = s.basic.rsoc.toNat) ∧
      (Reaches a 0x0050 → v.toNat = s.basic.fet.toNat) ∧
      (Reaches a 0x0054 → v.toNat = s.basic.cellBlocks.toNat) ∧
      (Reaches a 0x0058 → v.toNat = s.basic.ntcN.toNat) ∧
      (Reaches a 0x005C → v.toNat = s.cells.cellN)

/-- RD of MFG_DATE unpacks the two date bytes when BASIC_VALID = 1 and returns 0 otherwise, after reset
among others (R40). -/
def Obligations.ReadManufactureDate : Prop :=
  (∀ (s : State) (a : Addr) (b0 b1 : Nat), Reaches a 0x0034 →
    b0 = s.basic.mfgRaw.toNat / 256 → b1 = s.basic.mfgRaw.toNat % 256 →
    ∃ v : Word, exec (.rd a) s = .next { s with readData := v } ∧
      (s.basic.valid = false → v.toNat = 0) ∧
      (s.basic.valid = true →
        v.toNat = (2000 + b0 / 2) * 65536 + (b0 % 2 * 8 + b1 / 32) * 256 + b1 % 32)) ∧
  exec (.rd 0x0034#16) State.reset = .next { State.reset with readData := 0#32 }

/-- RD of NTC_TEMP[i], i ≤ 254, returns raw − 2731 as a signed 32-bit value when i < NTC_N, and 0 otherwise,
after reset among others (R51). -/
def Obligations.ReadTemperature : Prop :=
  ∀ (a : Addr) (i : Nat), i ≤ 254 → Reaches a (0x0400 + 4 * i) →
    (∀ s : State, ∃ v : Word, exec (.rd a) s = .next { s with readData := v } ∧
      (i < s.basic.ntcN.toNat → v.toInt = ((s.basic.ntc.getD i 0#16).toNat : Int) - 2731) ∧
      (¬ i < s.basic.ntcN.toNat → v = 0#32)) ∧
    exec (.rd a) State.reset = .next { State.reset with readData := 0#32 }

/-- RD of CELL_MV[j], j < CELL_MAX, returns the j-th cell voltage when j < CELL_N, and 0 otherwise, after
reset among others (R52). -/
def Obligations.ReadCellVoltage : Prop :=
  ∀ (a : Addr) (j : Nat), Reaches a (0x8000 + 4 * j) →
    (∀ s : State, s.cfg.Wf → j < s.cfg.cellMax →
      ∃ v : Word, exec (.rd a) s = .next { s with readData := v } ∧
        (j < s.cells.cellN → v.toNat = (s.cells.cell.getD j 0#16).toNat) ∧
        (¬ j < s.cells.cellN → v = 0#32)) ∧
    exec (.rd a) State.reset = .next { State.reset with readData := 0#32 }

/-- A read of an address the map does not name returns 0; a write to one, as a word or with the bus's full
32 bits, has no effect (R53). -/
def Obligations.UnmappedAddressesReadZeroAndIgnoreWrites : Prop :=
  ∀ (s : State) (a : Addr) (w : Nat), Reaches a w →
    (w = 0x001C ∨ (0x0060 ≤ w ∧ w ≤ 0x03FC) ∨ (0x07FC ≤ w ∧ w ≤ 0x7FFC) ∨
      0x8000 + 4 * s.cfg.cellMax ≤ w) →
    exec (.rd a) s = .next { s with readData := 0#32 } ∧
    (∀ imm, exec (.wrOther a imm) s = .next s) ∧
    (∀ (d : Word) (rest : List Stimulus),
      step { s with pending := .edge (writePins a d s.encCmd) :: rest } = .next { s with pending := rest })

/-- WR(CTRL, d) with d[0] = 1 clears the assembler, len <- 0 and mode <- ACCUM, and nothing else; with
d[0] = 0 it has no effect; the other bits are ignored (R191, R135). -/
def Obligations.ControlWriteClearsTheAssembler : Prop :=
  ∀ (s : State) (lane : BitVec 2) (imm : Imm12),
    (imm.getLsbD 0 = true →
      exec (.wrCtrl lane imm) s = .next { s with buf := [], mode := .accum }) ∧
    (imm.getLsbD 0 = false → exec (.wrCtrl lane imm) s = .next s)

/-- WR(STATUS, d) clears exactly the STICKY bits written 1 and changes nothing else (R192). -/
def Obligations.StatusWriteClearsTheBitsWrittenOne : Prop :=
  ∀ (s : State) (lane : BitVec 2) (imm : Imm12), ∃ t, exec (.wrStatus lane imm) s = .next t ∧
    (∀ k < 6, t.sticky.getLsbD k = (s.sticky.getLsbD k && !imm.getLsbD k)) ∧
    { t with sticky := s.sticky } = s

/-- WR(IRQ_EN, d) stores d[5:0] and changes nothing else (R193). -/
def Obligations.EnableWriteStoresSixBits : Prop :=
  ∀ (s : State) (lane : BitVec 2) (imm : Imm12), ∃ t, exec (.wrIrqEn lane imm) s = .next t ∧
    t.irqEn.toNat = imm.toNat % 64 ∧ { t with irqEn := s.irqEn } = s

/-- A bus write with its full 32-bit data: bits above the writable ones are ignored, and every address but
CTRL, STATUS and IRQ_EN has no effect on any state (R191 to R194). -/
def Obligations.BusWriteActsAtThreeRegistersOnly : Prop :=
  ∀ (s t : State) (a : Addr) (d : Word) (rest : List Stimulus),
    t = { s with pending := .edge (writePins a d s.encCmd) :: rest } →
    (Reaches a 0x0004 → step t = .next { s with
      pending := rest
      buf := if d.getLsbD 0 then [] else s.buf
      mode := if d.getLsbD 0 then .accum else s.mode }) ∧
    (Reaches a 0x0008 →
      step t = .next { s with pending := rest, sticky := s.sticky &&& ~~~(d.setWidth 6) }) ∧
    (Reaches a 0x000C → step t = .next { s with pending := rest, irqEn := d.setWidth 6 }) ∧
    (¬ Reaches a 0x0004 → ¬ Reaches a 0x0008 → ¬ Reaches a 0x000C →
      step t = .next { s with pending := rest })

/-- The host can never change decoded state: no sequence of register reads, register writes and encoder
requests changes a field, a counter or a record, and each sequence runs to its end (R194, R222). -/
def Obligations.HostNeverChangesDecodedState : Prop :=
  ∀ (is : List Instr) (s : State), (∀ i ∈ is, hostOperation i = true) →
    ∃ t, execAll is s = .next t ∧ SameFields s t ∧ SameRecords s t ∧ t.cfg = s.cfg ∧ t.pending = s.pending

/-- Repeating an access does no more than doing it once, and pushing a byte twice appends it twice
(R69). -/
def Obligations.AccessesAreIdempotentBeatsAreNot : Prop :=
  (∀ (i : Instr) (s t : State), hostOperation i = true → exec i s = .next t → exec i t = .next t) ∧
  (∀ (s : State) (b : Byte), s.mode = .accum → s.buf.length + 1 < s.cfg.bufMax →
    execAll [.push false b, .push false b] s = .next { s with buf := s.buf ++ [b, b] })

/-- WR_OTHER has no effect on any state at any address that is not CTRL, STATUS or IRQ_EN, the read-only
registers among them (R194). -/
def Obligations.OtherWritesHaveNoEffect : Prop :=
  ∀ (s : State) (a : Addr) (imm : Imm12) (rest : List Stimulus) (w : Word),
    ¬ Reaches a 0x0004 → ¬ Reaches a 0x0008 → ¬ Reaches a 0x000C →
    w.toNat = 3 * 2 ^ 28 + a.toNat * 2 ^ 12 + imm.toNat →
    exec (.wrOther a imm) s = .next s ∧
    step { s with pending := .htw w :: rest } = .next { s with pending := rest }

/-- irq is the OR over the six bits of STICKY and IRQ_EN, and 0 after reset (R195). -/
def Obligations.IrqIsTheOrOfEnabledEvents : Prop :=
  (∀ s : State, s.irq = true ↔ ∃ k, k < 6 ∧ s.sticky.getLsbD k = true ∧ s.irqEn.getLsbD k = true) ∧
  State.reset.irq = false

/-- A STICKY bit is cleared only by a W1C host write of 1 to it or by reset (R21): a step that clears bit k
takes a reset edge, a bus write to STATUS, or a WR word to STATUS, with bit k of the data 1. -/
def Obligations.StickyIsClearedOnlyByAcknowledgeOrReset : Prop :=
  ∀ (s t : State) (k : Nat), step s = .next t → s.sticky.getLsbD k = true → t.sticky.getLsbD k = false →
    (∃ p rest, s.pending = .edge p :: rest ∧
      (p.rst = true ∨ p.regReq = true ∧ p.regWe = true ∧ Reaches p.regAddr 0x0008 ∧
        p.regWdata.getLsbD k = true)) ∨
    (∃ w rest lane imm, s.pending = .htw w :: rest ∧ decode (.htw w) = .ok (.wrStatus lane imm) ∧
      imm.getLsbD k = true)

/-! ## Reset (70_reset_and_hazards.md section 1) -/

/-- After reset every register reads 0 but PARAM, which reads CELL_MAX·65536 + BUF_MAX, for every value of
the parameter; at State.reset that is 0x01FC_0400 (R240, R28). -/
def Obligations.ResetRegistersReadZero : Prop :=
  (∀ (cfg : Config) (a : Addr), cfg.Wf →
    ∃ v : Word, exec (.rd a) (State.resetWith cfg) = .next { State.resetWith cfg with readData := v } ∧
      (Reaches a 0x0000 → v.toNat = cfg.cellMax * 65536 + cfg.bufMax) ∧
      (¬ Reaches a 0x0000 → v = 0#32)) ∧
  exec (.rd 0x0000#16) State.reset = .next { State.reset with readData := 0x01FC0400#32 }

/-! ## Invariants and whole-machine rules -/

/-- The invariant holds right after reset, for every value of the parameter in its range (R5, R240). -/
def Obligations.ResetMeetsTheInvariant : Prop :=
  (∀ cfg : Config, cfg.Wf → Inv (State.resetWith cfg)) ∧ Inv State.reset

/-- Every step keeps the invariant: the buffer within BUF_MAX and empty in DISCARD, the records agreeing with
the cause table, each field set holding the values of one complete valid frame or its reset values, the
counters counting only commits (R13, R18, R19, R134, R160, R210). -/
def Obligations.StepKeepsTheInvariant : Prop :=
  ∀ s t : State, Inv s → step s = .next t → Inv t

/-- The snapshot guarantee: over fewer than 65536 steps without a reset between two states with the same
BASIC_GEN, every state in between has one and the same basic field set; the same of CELL_GEN and the cell
set (R76, R196). -/
def Obligations.EqualGenerationsMeanOneCommit : Prop :=
  ∀ (n : Nat) (s t : State), n < 65536 → (∀ p ∈ s.pending.take n, Stimulus.isReset p = false) →
    runSteps n s = .next t →
    (s.basicGen = t.basicGen → ∀ k ≤ n, ∃ u, runSteps k s = .next u ∧ u.basic = s.basic) ∧
    (s.cellGen = t.cellGen → ∀ k ≤ n, ∃ u, runSteps k s = .next u ∧ u.cells = s.cells)

/-- No step changes the parameter (R11, R28). That no instruction changes the stimuli to come (log 1), only
ENC the encoder's input (log 4) and only RD the value last read (log 3) is the model's choice. -/
def Obligations.OutsideAndParameterAreLeftAlone : Prop :=
  (∀ s t : State, step s = .next t → t.cfg = s.cfg) ∧
  (∀ (i : Instr) (s t : State), exec i s = .next t →
    t.cfg = s.cfg ∧ t.pending = s.pending ∧ ((∀ c, i ≠ .enc c) → t.encCmd = s.encCmd) ∧
    ((∀ a, i ≠ .rd a) → t.readData = s.readData))

/-! ## The snapshot protocol (43_host_bus.md rule R196) -/

/-- `current_state` returns, from every state and whatever falls between its reads (R196). That only
finitely many edges fall between them is the model's choice (log 14). -/
def Obligations.CurrentStateReturns : Prop :=
  ∀ r : DriverRun, ∃ x, currentState r = some x

/-- With nothing between its reads `current_state` makes one pass: GEN, STATUS, the fifteen basic registers,
NTC_TEMP below the NTC_COUNT read, CELL_COUNT, CELL_MV below the CELL_COUNT read, GEN; it returns their
views (R196). The value of the last read stays in `readData` (log 3). -/
def Obligations.CurrentStateAloneReadsTheState : Prop :=
  ∀ s : State, Inv s →
    currentState { block := s, between := [], trace := [] } = some
      ({ status := regRead 0x0008#16 s
         basic := basicAddrs.map fun a => regRead a s
         temps := (List.range s.basic.ntcN.toNat).map fun i => regRead (BitVec.ofNat 16 (0x0400 + 4 * i)) s
         cells := (List.range s.cells.cellN).map fun j => regRead (BitVec.ofNat 16 (0x8000 + 4 * j)) s },
       { block := { s with readData := regRead 0x0018#16 s }
         between := []
         trace := stimuliOf
          (([0x0018#16, 0x0008#16, 0x0020#16, 0x0024#16, 0x0028#16, 0x002C#16, 0x0030#16, 0x0034#16, 0x0038#16,
              0x003C#16, 0x0040#16, 0x0044#16, 0x0048#16, 0x004C#16, 0x0050#16, 0x0054#16, 0x0058#16] ++
            (List.range s.basic.ntcN.toNat).map (fun i => BitVec.ofNat 16 (0x0400 + 4 * i)) ++ [0x005C#16] ++
            (List.range s.cells.cellN).map (fun j => BitVec.ofNat 16 (0x8000 + 4 * j)) ++
            [0x0018#16]).map Instr.rd) })

/-- A run of `current_state` is a run of the block: presented with the edges and reads of its trace, the
block takes one step for each and ends in the state the run ends in (R73, R106). -/
def Obligations.CurrentStateRunsAsSteps : Prop :=
  ∀ (r q : DriverRun) (snap : Snapshot) (rest : List Stimulus),
    r.trace = [] → currentState r = some (snap, q) →
    runSteps q.trace.length { r.block with pending := q.trace ++ rest } = .next { q.block with pending := rest }

/-- The guarantee of `current_state`: over fewer than 65536 edges without a reset, what it returns is read
from ONE state the block stood in on the way: the basic words and temperatures are the views of that
state's basic set, the cells those of its cell set, and the valid bits of the STATUS word are that state's
(R76, R196). By the invariant each set is then one valid frame's, or its reset values. -/
def Obligations.CurrentStateIsOneCommit : Prop :=
  ∀ (r q : DriverRun) (snap : Snapshot),
    Inv r.block → r.trace = [] → (∀ es ∈ r.between, ∀ p ∈ es, p.rst = false) →
    r.between.flatten.length < 65536 → currentState r = some (snap, q) →
    ∃ (k : Nat) (u : State), k ≤ q.trace.length ∧
      runSteps k { r.block with pending := q.trace } = .next u ∧ Inv u ∧
      (snap.basic = basicAddrs.map fun a => regRead a u) ∧
      (snap.temps = (List.range u.basic.ntcN.toNat).map fun i => regRead (ntcTempAddr i) u) ∧
      (snap.cells = (List.range u.cells.cellN).map fun j => regRead (cellMvAddr j) u) ∧
      snap.status.getLsbD 8 = u.basic.valid ∧ snap.status.getLsbD 9 = u.cells.valid
end

