-- ==== Sys2Proof/Laws/Operands.lean ====
section
/-! SUPPORT. What the operand forms and the flag computations say in numbers: one lemma each, cited in
place of unfolding them. -/

namespace Sys2Proof.Machine

/-! ## Frame fields -/

/-- The statements write F[i] as a list access; the model has a name for it. -/
theorem getD_eq_frameByte (f : Memory) (i : Nat) : f.getD i 0#8 = frameByte f i := rfl

/-- A field is the first byte times 256 plus the second (R90). -/
theorem be16_toNat (f : Memory) (i : Nat) :
    (be16 f i).toNat = (frameByte f i).toNat * 256 + (frameByte f (i + 1)).toNat := by
  have h := (frameByte f (i + 1)).isLt
  simp only [be16, BitVec.toNat_append]
  rw [← Nat.shiftLeft_add_eq_or_of_lt h, Nat.shiftLeft_eq]

/-- The current is the field minus 65536 from 32768 on (R91). -/
theorem be16_toInt (f : Memory) (i : Nat) :
    (be16 f i).toInt =
      if 32768 ≤ (be16 f i).toNat then ((be16 f i).toNat : Int) - 65536 else (be16 f i).toNat := by
  have := (be16 f i).isLt
  rw [BitVec.toInt_eq_toNat_cond]
  split <;> split <;> omega

@[simp] theorem be16List_length (f : Memory) (base n : Nat) : (be16List f base n).length = n := by
  simp [be16List]

/-- Entry k of a list of fields is the field at base + 2k (R155, R157). -/
@[simp] theorem be16List_getElem? (f : Memory) (base n k : Nat) :
    (be16List f base n)[k]? = if k < n then some (be16 f (base + 2 * k)) else none := by
  simp only [be16List, List.getElem?_map]
  split
  · rw [List.getElem?_eq_getElem (by simpa using ‹k < n›)]; simp
  · rw [List.getElem?_eq_none (by simpa using ‹¬ k < n›)]; rfl

theorem be16List_getD (f : Memory) (base n k : Nat) (h : k < n) :
    (be16List f base n).getD k 0#16 = be16 f (base + 2 * k) := by
  rw [List.getD_eq_getElem?_getD, be16List_getElem?, if_pos h]
  rfl

/-- A frame's byte inside its length is its list entry. -/
theorem frameByte_eq {f : Memory} {i : Nat} (h : i < f.length) : frameByte f i = f[i] := by
  simp [frameByte, List.getD, List.getElem?_eq_getElem h]

/-- The bytes before an appended one are unchanged. -/
theorem frameByte_append_left {f g : Memory} {i : Nat} (h : i < f.length) :
    frameByte (f ++ g) i = frameByte f i := by
  simp [frameByte, List.getD, List.getElem?_append_left h]

/-- A frame with a key has at least two bytes, and the key is its byte 1 (R102). -/
theorem frameCode_key {f : Memory} (h : 2 ≤ f.length) : frameCode f = .key (frameByte f 1) := by
  match f, h with
  | _ :: k :: _, _ => rfl

/-- A frame of length below two has no key (R102). -/
theorem frameCode_noKey {f : Memory} (h : f.length < 2) : frameCode f = .noKey := by
  match f, h with
  | [], _ => rfl
  | [_], _ => rfl

/-! ## The checksum -/

/-- The checksum is the negated command code (R121). -/
theorem checksum_eq_neg (c : Byte) : checksum c = -c := by
  simp only [checksum]
  bv_omega

/-! ## STICKY -/

/-- Setting bits: a bit is set after when it was before or is among them (R21). -/
@[simp] theorem setSticky_getLsbD (x m : BitVec 6) (k : Nat) :
    (setSticky x m).getLsbD k = (x.getLsbD k || m.getLsbD k) := by
  simp [setSticky]

/-- W1C: a bit is set after when it was before and is not written 1 (R192). -/
theorem clearSticky_getLsbD (x : BitVec 6) (d : Word) (k : Nat) (h : k < 6) :
    (clearSticky x d).getLsbD k = (x.getLsbD k && !d.getLsbD k) := by
  simp [clearSticky, h]

@[simp] theorem clearSticky_getLsbD_of_ge (x : BitVec 6) (d : Word) (k : Nat) (h : 6 ≤ k) :
    (clearSticky x d).getLsbD k = false := by
  exact BitVec.getLsbD_of_ge _ _ h

end Sys2Proof.Machine
end

