-- ==== Sys2Proof/Laws/State.lean ====
section
/-! SUPPORT. Every field after every named update of the state, true by rfl: no later proof unfolds a
record update. -/

namespace Sys2Proof.Machine

variable (s : State)

/-! storeByte -/

@[simp] theorem storeByte_cfg (b : Byte) : (s.storeByte b).cfg = s.cfg := rfl
@[simp] theorem storeByte_buf (b : Byte) : (s.storeByte b).buf = s.buf ++ [b] := rfl
@[simp] theorem storeByte_mode (b : Byte) : (s.storeByte b).mode = s.mode := rfl
@[simp] theorem storeByte_basic (b : Byte) : (s.storeByte b).basic = s.basic := rfl
@[simp] theorem storeByte_cells (b : Byte) : (s.storeByte b).cells = s.cells := rfl
@[simp] theorem storeByte_sticky (b : Byte) : (s.storeByte b).sticky = s.sticky := rfl
@[simp] theorem storeByte_irqEn (b : Byte) : (s.storeByte b).irqEn = s.irqEn := rfl
@[simp] theorem storeByte_last (b : Byte) : (s.storeByte b).last = s.last := rfl
@[simp] theorem storeByte_stat (b : Byte) : (s.storeByte b).stat = s.stat := rfl
@[simp] theorem storeByte_basicGen (b : Byte) : (s.storeByte b).basicGen = s.basicGen := rfl
@[simp] theorem storeByte_cellGen (b : Byte) : (s.storeByte b).cellGen = s.cellGen := rfl
@[simp] theorem storeByte_readData (b : Byte) : (s.storeByte b).readData = s.readData := rfl
@[simp] theorem storeByte_encCmd (b : Byte) : (s.storeByte b).encCmd = s.encCmd := rfl
@[simp] theorem storeByte_pending (b : Byte) : (s.storeByte b).pending = s.pending := rfl

/-! emptyBuffer -/

@[simp] theorem emptyBuffer_cfg : (s.emptyBuffer).cfg = s.cfg := rfl
@[simp] theorem emptyBuffer_buf : (s.emptyBuffer).buf = [] := rfl
@[simp] theorem emptyBuffer_mode : (s.emptyBuffer).mode = s.mode := rfl
@[simp] theorem emptyBuffer_basic : (s.emptyBuffer).basic = s.basic := rfl
@[simp] theorem emptyBuffer_cells : (s.emptyBuffer).cells = s.cells := rfl
@[simp] theorem emptyBuffer_sticky : (s.emptyBuffer).sticky = s.sticky := rfl
@[simp] theorem emptyBuffer_irqEn : (s.emptyBuffer).irqEn = s.irqEn := rfl
@[simp] theorem emptyBuffer_last : (s.emptyBuffer).last = s.last := rfl
@[simp] theorem emptyBuffer_stat : (s.emptyBuffer).stat = s.stat := rfl
@[simp] theorem emptyBuffer_basicGen : (s.emptyBuffer).basicGen = s.basicGen := rfl
@[simp] theorem emptyBuffer_cellGen : (s.emptyBuffer).cellGen = s.cellGen := rfl
@[simp] theorem emptyBuffer_readData : (s.emptyBuffer).readData = s.readData := rfl
@[simp] theorem emptyBuffer_encCmd : (s.emptyBuffer).encCmd = s.encCmd := rfl
@[simp] theorem emptyBuffer_pending : (s.emptyBuffer).pending = s.pending := rfl

/-! setMode -/

@[simp] theorem setMode_cfg (m : Mode) : (s.setMode m).cfg = s.cfg := rfl
@[simp] theorem setMode_buf (m : Mode) : (s.setMode m).buf = s.buf := rfl
@[simp] theorem setMode_mode (m : Mode) : (s.setMode m).mode = m := rfl
@[simp] theorem setMode_basic (m : Mode) : (s.setMode m).basic = s.basic := rfl
@[simp] theorem setMode_cells (m : Mode) : (s.setMode m).cells = s.cells := rfl
@[simp] theorem setMode_sticky (m : Mode) : (s.setMode m).sticky = s.sticky := rfl
@[simp] theorem setMode_irqEn (m : Mode) : (s.setMode m).irqEn = s.irqEn := rfl
@[simp] theorem setMode_last (m : Mode) : (s.setMode m).last = s.last := rfl
@[simp] theorem setMode_stat (m : Mode) : (s.setMode m).stat = s.stat := rfl
@[simp] theorem setMode_basicGen (m : Mode) : (s.setMode m).basicGen = s.basicGen := rfl
@[simp] theorem setMode_cellGen (m : Mode) : (s.setMode m).cellGen = s.cellGen := rfl
@[simp] theorem setMode_readData (m : Mode) : (s.setMode m).readData = s.readData := rfl
@[simp] theorem setMode_encCmd (m : Mode) : (s.setMode m).encCmd = s.encCmd := rfl
@[simp] theorem setMode_pending (m : Mode) : (s.setMode m).pending = s.pending := rfl

/-! clearAssembler -/

@[simp] theorem clearAssembler_cfg : (s.clearAssembler).cfg = s.cfg := rfl
@[simp] theorem clearAssembler_buf : (s.clearAssembler).buf = [] := rfl
@[simp] theorem clearAssembler_mode : (s.clearAssembler).mode = .accum := rfl
@[simp] theorem clearAssembler_basic : (s.clearAssembler).basic = s.basic := rfl
@[simp] theorem clearAssembler_cells : (s.clearAssembler).cells = s.cells := rfl
@[simp] theorem clearAssembler_sticky : (s.clearAssembler).sticky = s.sticky := rfl
@[simp] theorem clearAssembler_irqEn : (s.clearAssembler).irqEn = s.irqEn := rfl
@[simp] theorem clearAssembler_last : (s.clearAssembler).last = s.last := rfl
@[simp] theorem clearAssembler_stat : (s.clearAssembler).stat = s.stat := rfl
@[simp] theorem clearAssembler_basicGen : (s.clearAssembler).basicGen = s.basicGen := rfl
@[simp] theorem clearAssembler_cellGen : (s.clearAssembler).cellGen = s.cellGen := rfl
@[simp] theorem clearAssembler_readData : (s.clearAssembler).readData = s.readData := rfl
@[simp] theorem clearAssembler_encCmd : (s.clearAssembler).encCmd = s.encCmd := rfl
@[simp] theorem clearAssembler_pending : (s.clearAssembler).pending = s.pending := rfl

/-! raiseOutcome -/

@[simp] theorem raiseOutcome_cfg (c : ResultCode) : (s.raiseOutcome c).cfg = s.cfg := rfl
@[simp] theorem raiseOutcome_buf (c : ResultCode) : (s.raiseOutcome c).buf = s.buf := rfl
@[simp] theorem raiseOutcome_mode (c : ResultCode) : (s.raiseOutcome c).mode = s.mode := rfl
@[simp] theorem raiseOutcome_basic (c : ResultCode) : (s.raiseOutcome c).basic = s.basic := rfl
@[simp] theorem raiseOutcome_cells (c : ResultCode) : (s.raiseOutcome c).cells = s.cells := rfl
@[simp] theorem raiseOutcome_sticky (c : ResultCode) :
    (s.raiseOutcome c).sticky = setSticky s.sticky (outcomeBit c) := rfl
@[simp] theorem raiseOutcome_irqEn (c : ResultCode) : (s.raiseOutcome c).irqEn = s.irqEn := rfl
@[simp] theorem raiseOutcome_last (c : ResultCode) :
    (s.raiseOutcome c).last = { s.last with result := c } := rfl
@[simp] theorem raiseOutcome_stat (c : ResultCode) : (s.raiseOutcome c).stat = s.stat := rfl
@[simp] theorem raiseOutcome_basicGen (c : ResultCode) :
    (s.raiseOutcome c).basicGen = s.basicGen := rfl
@[simp] theorem raiseOutcome_cellGen (c : ResultCode) :
    (s.raiseOutcome c).cellGen = s.cellGen := rfl
@[simp] theorem raiseOutcome_readData (c : ResultCode) :
    (s.raiseOutcome c).readData = s.readData := rfl
@[simp] theorem raiseOutcome_encCmd (c : ResultCode) : (s.raiseOutcome c).encCmd = s.encCmd := rfl
@[simp] theorem raiseOutcome_pending (c : ResultCode) :
    (s.raiseOutcome c).pending = s.pending := rfl

/-! raiseOverflow -/

@[simp] theorem raiseOverflow_cfg : (s.raiseOverflow).cfg = s.cfg := rfl
@[simp] theorem raiseOverflow_buf : (s.raiseOverflow).buf = s.buf := rfl
@[simp] theorem raiseOverflow_mode : (s.raiseOverflow).mode = s.mode := rfl
@[simp] theorem raiseOverflow_basic : (s.raiseOverflow).basic = s.basic := rfl
@[simp] theorem raiseOverflow_cells : (s.raiseOverflow).cells = s.cells := rfl
@[simp] theorem raiseOverflow_sticky :
    (s.raiseOverflow).sticky = setSticky s.sticky overflowBit := rfl
@[simp] theorem raiseOverflow_irqEn : (s.raiseOverflow).irqEn = s.irqEn := rfl
@[simp] theorem raiseOverflow_last : (s.raiseOverflow).last = s.last := rfl
@[simp] theorem raiseOverflow_stat : (s.raiseOverflow).stat = s.stat := rfl
@[simp] theorem raiseOverflow_basicGen : (s.raiseOverflow).basicGen = s.basicGen := rfl
@[simp] theorem raiseOverflow_cellGen : (s.raiseOverflow).cellGen = s.cellGen := rfl
@[simp] theorem raiseOverflow_readData : (s.raiseOverflow).readData = s.readData := rfl
@[simp] theorem raiseOverflow_encCmd : (s.raiseOverflow).encCmd = s.encCmd := rfl
@[simp] theorem raiseOverflow_pending : (s.raiseOverflow).pending = s.pending := rfl

/-! ackSticky -/

@[simp] theorem ackSticky_cfg (d : Word) : (s.ackSticky d).cfg = s.cfg := rfl
@[simp] theorem ackSticky_buf (d : Word) : (s.ackSticky d).buf = s.buf := rfl
@[simp] theorem ackSticky_mode (d : Word) : (s.ackSticky d).mode = s.mode := rfl
@[simp] theorem ackSticky_basic (d : Word) : (s.ackSticky d).basic = s.basic := rfl
@[simp] theorem ackSticky_cells (d : Word) : (s.ackSticky d).cells = s.cells := rfl
@[simp] theorem ackSticky_sticky (d : Word) : (s.ackSticky d).sticky = clearSticky s.sticky d := rfl
@[simp] theorem ackSticky_irqEn (d : Word) : (s.ackSticky d).irqEn = s.irqEn := rfl
@[simp] theorem ackSticky_last (d : Word) : (s.ackSticky d).last = s.last := rfl
@[simp] theorem ackSticky_stat (d : Word) : (s.ackSticky d).stat = s.stat := rfl
@[simp] theorem ackSticky_basicGen (d : Word) : (s.ackSticky d).basicGen = s.basicGen := rfl
@[simp] theorem ackSticky_cellGen (d : Word) : (s.ackSticky d).cellGen = s.cellGen := rfl
@[simp] theorem ackSticky_readData (d : Word) : (s.ackSticky d).readData = s.readData := rfl
@[simp] theorem ackSticky_encCmd (d : Word) : (s.ackSticky d).encCmd = s.encCmd := rfl
@[simp] theorem ackSticky_pending (d : Word) : (s.ackSticky d).pending = s.pending := rfl

/-! setIrqEn -/

@[simp] theorem setIrqEn_cfg (d : Word) : (s.setIrqEn d).cfg = s.cfg := rfl
@[simp] theorem setIrqEn_buf (d : Word) : (s.setIrqEn d).buf = s.buf := rfl
@[simp] theorem setIrqEn_mode (d : Word) : (s.setIrqEn d).mode = s.mode := rfl
@[simp] theorem setIrqEn_basic (d : Word) : (s.setIrqEn d).basic = s.basic := rfl
@[simp] theorem setIrqEn_cells (d : Word) : (s.setIrqEn d).cells = s.cells := rfl
@[simp] theorem setIrqEn_sticky (d : Word) : (s.setIrqEn d).sticky = s.sticky := rfl
@[simp] theorem setIrqEn_irqEn (d : Word) : (s.setIrqEn d).irqEn = d.extractLsb' 0 6 := rfl
@[simp] theorem setIrqEn_last (d : Word) : (s.setIrqEn d).last = s.last := rfl
@[simp] theorem setIrqEn_stat (d : Word) : (s.setIrqEn d).stat = s.stat := rfl
@[simp] theorem setIrqEn_basicGen (d : Word) : (s.setIrqEn d).basicGen = s.basicGen := rfl
@[simp] theorem setIrqEn_cellGen (d : Word) : (s.setIrqEn d).cellGen = s.cellGen := rfl
@[simp] theorem setIrqEn_readData (d : Word) : (s.setIrqEn d).readData = s.readData := rfl
@[simp] theorem setIrqEn_encCmd (d : Word) : (s.setIrqEn d).encCmd = s.encCmd := rfl
@[simp] theorem setIrqEn_pending (d : Word) : (s.setIrqEn d).pending = s.pending := rfl

/-! recordFrame -/

@[simp] theorem recordFrame_cfg (f : Memory) : (s.recordFrame f).cfg = s.cfg := rfl
@[simp] theorem recordFrame_buf (f : Memory) : (s.recordFrame f).buf = s.buf := rfl
@[simp] theorem recordFrame_mode (f : Memory) : (s.recordFrame f).mode = s.mode := rfl
@[simp] theorem recordFrame_basic (f : Memory) : (s.recordFrame f).basic = s.basic := rfl
@[simp] theorem recordFrame_cells (f : Memory) : (s.recordFrame f).cells = s.cells := rfl
@[simp] theorem recordFrame_sticky (f : Memory) : (s.recordFrame f).sticky = s.sticky := rfl
@[simp] theorem recordFrame_irqEn (f : Memory) : (s.recordFrame f).irqEn = s.irqEn := rfl
@[simp] theorem recordFrame_last (f : Memory) : (s.recordFrame f).last = keyRecord f s.last := rfl
@[simp] theorem recordFrame_stat (f : Memory) : (s.recordFrame f).stat = statRecord f := rfl
@[simp] theorem recordFrame_basicGen (f : Memory) : (s.recordFrame f).basicGen = s.basicGen := rfl
@[simp] theorem recordFrame_cellGen (f : Memory) : (s.recordFrame f).cellGen = s.cellGen := rfl
@[simp] theorem recordFrame_readData (f : Memory) : (s.recordFrame f).readData = s.readData := rfl
@[simp] theorem recordFrame_encCmd (f : Memory) : (s.recordFrame f).encCmd = s.encCmd := rfl
@[simp] theorem recordFrame_pending (f : Memory) : (s.recordFrame f).pending = s.pending := rfl

/-! commitBasic -/

@[simp] theorem commitBasic_cfg (f : Memory) : (s.commitBasic f).cfg = s.cfg := rfl
@[simp] theorem commitBasic_buf (f : Memory) : (s.commitBasic f).buf = s.buf := rfl
@[simp] theorem commitBasic_mode (f : Memory) : (s.commitBasic f).mode = s.mode := rfl
@[simp] theorem commitBasic_basic (f : Memory) : (s.commitBasic f).basic = basicOf f := rfl
@[simp] theorem commitBasic_cells (f : Memory) : (s.commitBasic f).cells = s.cells := rfl
@[simp] theorem commitBasic_sticky (f : Memory) : (s.commitBasic f).sticky = s.sticky := rfl
@[simp] theorem commitBasic_irqEn (f : Memory) : (s.commitBasic f).irqEn = s.irqEn := rfl
@[simp] theorem commitBasic_last (f : Memory) : (s.commitBasic f).last = s.last := rfl
@[simp] theorem commitBasic_stat (f : Memory) : (s.commitBasic f).stat = s.stat := rfl
@[simp] theorem commitBasic_basicGen (f : Memory) :
    (s.commitBasic f).basicGen = s.basicGen + 1#16 := rfl
@[simp] theorem commitBasic_cellGen (f : Memory) : (s.commitBasic f).cellGen = s.cellGen := rfl
@[simp] theorem commitBasic_readData (f : Memory) : (s.commitBasic f).readData = s.readData := rfl
@[simp] theorem commitBasic_encCmd (f : Memory) : (s.commitBasic f).encCmd = s.encCmd := rfl
@[simp] theorem commitBasic_pending (f : Memory) : (s.commitBasic f).pending = s.pending := rfl

/-! commitCells -/

@[simp] theorem commitCells_cfg (f : Memory) : (s.commitCells f).cfg = s.cfg := rfl
@[simp] theorem commitCells_buf (f : Memory) : (s.commitCells f).buf = s.buf := rfl
@[simp] theorem commitCells_mode (f : Memory) : (s.commitCells f).mode = s.mode := rfl
@[simp] theorem commitCells_basic (f : Memory) : (s.commitCells f).basic = s.basic := rfl
@[simp] theorem commitCells_cells (f : Memory) : (s.commitCells f).cells = cellsOf f := rfl
@[simp] theorem commitCells_sticky (f : Memory) : (s.commitCells f).sticky = s.sticky := rfl
@[simp] theorem commitCells_irqEn (f : Memory) : (s.commitCells f).irqEn = s.irqEn := rfl
@[simp] theorem commitCells_last (f : Memory) : (s.commitCells f).last = s.last := rfl
@[simp] theorem commitCells_stat (f : Memory) : (s.commitCells f).stat = s.stat := rfl
@[simp] theorem commitCells_basicGen (f : Memory) : (s.commitCells f).basicGen = s.basicGen := rfl
@[simp] theorem commitCells_cellGen (f : Memory) :
    (s.commitCells f).cellGen = s.cellGen + 1#16 := rfl
@[simp] theorem commitCells_readData (f : Memory) : (s.commitCells f).readData = s.readData := rfl
@[simp] theorem commitCells_encCmd (f : Memory) : (s.commitCells f).encCmd = s.encCmd := rfl
@[simp] theorem commitCells_pending (f : Memory) : (s.commitCells f).pending = s.pending := rfl

/-! latchRead -/

@[simp] theorem latchRead_cfg (v : Word) : (s.latchRead v).cfg = s.cfg := rfl
@[simp] theorem latchRead_buf (v : Word) : (s.latchRead v).buf = s.buf := rfl
@[simp] theorem latchRead_mode (v : Word) : (s.latchRead v).mode = s.mode := rfl
@[simp] theorem latchRead_basic (v : Word) : (s.latchRead v).basic = s.basic := rfl
@[simp] theorem latchRead_cells (v : Word) : (s.latchRead v).cells = s.cells := rfl
@[simp] theorem latchRead_sticky (v : Word) : (s.latchRead v).sticky = s.sticky := rfl
@[simp] theorem latchRead_irqEn (v : Word) : (s.latchRead v).irqEn = s.irqEn := rfl
@[simp] theorem latchRead_last (v : Word) : (s.latchRead v).last = s.last := rfl
@[simp] theorem latchRead_stat (v : Word) : (s.latchRead v).stat = s.stat := rfl
@[simp] theorem latchRead_basicGen (v : Word) : (s.latchRead v).basicGen = s.basicGen := rfl
@[simp] theorem latchRead_cellGen (v : Word) : (s.latchRead v).cellGen = s.cellGen := rfl
@[simp] theorem latchRead_readData (v : Word) : (s.latchRead v).readData = v := rfl
@[simp] theorem latchRead_encCmd (v : Word) : (s.latchRead v).encCmd = s.encCmd := rfl
@[simp] theorem latchRead_pending (v : Word) : (s.latchRead v).pending = s.pending := rfl

/-! presentCmd -/

@[simp] theorem presentCmd_cfg (c : Byte) : (s.presentCmd c).cfg = s.cfg := rfl
@[simp] theorem presentCmd_buf (c : Byte) : (s.presentCmd c).buf = s.buf := rfl
@[simp] theorem presentCmd_mode (c : Byte) : (s.presentCmd c).mode = s.mode := rfl
@[simp] theorem presentCmd_basic (c : Byte) : (s.presentCmd c).basic = s.basic := rfl
@[simp] theorem presentCmd_cells (c : Byte) : (s.presentCmd c).cells = s.cells := rfl
@[simp] theorem presentCmd_sticky (c : Byte) : (s.presentCmd c).sticky = s.sticky := rfl
@[simp] theorem presentCmd_irqEn (c : Byte) : (s.presentCmd c).irqEn = s.irqEn := rfl
@[simp] theorem presentCmd_last (c : Byte) : (s.presentCmd c).last = s.last := rfl
@[simp] theorem presentCmd_stat (c : Byte) : (s.presentCmd c).stat = s.stat := rfl
@[simp] theorem presentCmd_basicGen (c : Byte) : (s.presentCmd c).basicGen = s.basicGen := rfl
@[simp] theorem presentCmd_cellGen (c : Byte) : (s.presentCmd c).cellGen = s.cellGen := rfl
@[simp] theorem presentCmd_readData (c : Byte) : (s.presentCmd c).readData = s.readData := rfl
@[simp] theorem presentCmd_encCmd (c : Byte) : (s.presentCmd c).encCmd = c := rfl
@[simp] theorem presentCmd_pending (c : Byte) : (s.presentCmd c).pending = s.pending := rfl

/-! setPending -/

@[simp] theorem setPending_cfg (l : List Stimulus) : (s.setPending l).cfg = s.cfg := rfl
@[simp] theorem setPending_buf (l : List Stimulus) : (s.setPending l).buf = s.buf := rfl
@[simp] theorem setPending_mode (l : List Stimulus) : (s.setPending l).mode = s.mode := rfl
@[simp] theorem setPending_basic (l : List Stimulus) : (s.setPending l).basic = s.basic := rfl
@[simp] theorem setPending_cells (l : List Stimulus) : (s.setPending l).cells = s.cells := rfl
@[simp] theorem setPending_sticky (l : List Stimulus) : (s.setPending l).sticky = s.sticky := rfl
@[simp] theorem setPending_irqEn (l : List Stimulus) : (s.setPending l).irqEn = s.irqEn := rfl
@[simp] theorem setPending_last (l : List Stimulus) : (s.setPending l).last = s.last := rfl
@[simp] theorem setPending_stat (l : List Stimulus) : (s.setPending l).stat = s.stat := rfl
@[simp] theorem setPending_basicGen (l : List Stimulus) :
    (s.setPending l).basicGen = s.basicGen := rfl
@[simp] theorem setPending_cellGen (l : List Stimulus) : (s.setPending l).cellGen = s.cellGen := rfl
@[simp] theorem setPending_readData (l : List Stimulus) :
    (s.setPending l).readData = s.readData := rfl
@[simp] theorem setPending_encCmd (l : List Stimulus) : (s.setPending l).encCmd = s.encCmd := rfl
@[simp] theorem setPending_pending (l : List Stimulus) : (s.setPending l).pending = l := rfl

/-! hardReset -/

@[simp] theorem hardReset_cfg : (s.hardReset).cfg = s.cfg := rfl
@[simp] theorem hardReset_buf : (s.hardReset).buf = [] := rfl
@[simp] theorem hardReset_mode : (s.hardReset).mode = .accum := rfl
@[simp] theorem hardReset_basic : (s.hardReset).basic = BasicSet.empty := rfl
@[simp] theorem hardReset_cells : (s.hardReset).cells = CellSet.empty := rfl
@[simp] theorem hardReset_sticky : (s.hardReset).sticky = 0#6 := rfl
@[simp] theorem hardReset_irqEn : (s.hardReset).irqEn = 0#6 := rfl
@[simp] theorem hardReset_last :
    (s.hardReset).last = { result := .none, key := 0#8, keyValid := false, len := 0#16 } := rfl
@[simp] theorem hardReset_stat : (s.hardReset).stat = { byte := 0#8, valid := false } := rfl
@[simp] theorem hardReset_basicGen : (s.hardReset).basicGen = 0#16 := rfl
@[simp] theorem hardReset_cellGen : (s.hardReset).cellGen = 0#16 := rfl
@[simp] theorem hardReset_readData : (s.hardReset).readData = 0#32 := rfl
@[simp] theorem hardReset_encCmd : (s.hardReset).encCmd = s.encCmd := rfl
@[simp] theorem hardReset_pending : (s.hardReset).pending = s.pending := rfl

end Sys2Proof.Machine
end

