-- ==== Sys2Proof/Laws/Decoder.lean ====
section
/-! SUPPORT. Everything a decode can do, said once for each frame kind: it raises one outcome, or it
commits its field set and raises its success. -/

namespace Sys2Proof.Machine

/-- BASIC_INFO: the four failing checks in order, or the commit (R152, R153). -/
theorem basicInfo_cases (f : Memory) (s : State) :
    (f.length < 34 ∧ basicInfo f s = s.raiseOutcome .invalidShort) ∨
    (34 ≤ f.length ∧ frameByte f 0 ≠ 0xDD#8 ∧ basicInfo f s = s.raiseOutcome .invalidStart) ∨
    (34 ≤ f.length ∧ frameByte f 0 = 0xDD#8 ∧ frameByte f 2 ≠ 0#8 ∧
      basicInfo f s = s.raiseOutcome .deviceError) ∨
    (34 ≤ f.length ∧ frameByte f 0 = 0xDD#8 ∧ frameByte f 2 = 0#8 ∧
      f.length < 27 + 2 * (frameByte f 26).toNat ∧ basicInfo f s = s.raiseOutcome .invalidNtc) ∨
    (34 ≤ f.length ∧ frameByte f 0 = 0xDD#8 ∧ frameByte f 2 = 0#8 ∧
      27 + 2 * (frameByte f 26).toNat ≤ f.length ∧
      basicInfo f s = (s.commitBasic f).raiseOutcome .basicOk) := by
  simp only [basicInfo, ntcCount]
  by_cases h1 : f.length < 34
  · exact .inl ⟨h1, if_pos h1⟩
  · simp only [if_neg h1]
    by_cases h2 : frameByte f 0 = 0xDD#8
    · by_cases h3 : frameByte f 2 = 0#8
      · by_cases h4 : f.length < 27 + 2 * (frameByte f 26).toNat
        · simp [h2, h3, h4]; omega
        · simp [h2, h3, h4]; omega
      · simp [h2, h3]; omega
    · simp [h2]; omega

/-- CELL_VOLTAGE: the length check, or the commit (R156). -/
theorem cellVoltage_cases (f : Memory) (s : State) :
    (f.length < 7 ∧ cellVoltage f s = s.raiseOutcome .invalidShort) ∨
    (7 ≤ f.length ∧ cellVoltage f s = (s.commitCells f).raiseOutcome .cellOk) := by
  simp only [cellVoltage]
  by_cases h : f.length < 7
  · exact .inl ⟨h, if_pos h⟩
  · exact .inr ⟨by omega, if_neg h⟩

/-- DISPATCH selects by length and key (R102, R150). -/
theorem selectDecode_cases (f : Memory) (s : State) :
    (f.length < 2 ∧ selectDecode f s = s.raiseOutcome .runt) ∨
    (2 ≤ f.length ∧ frameByte f 1 = 0x03#8 ∧ selectDecode f s = basicInfo f s) ∨
    (2 ≤ f.length ∧ frameByte f 1 = 0x04#8 ∧ selectDecode f s = cellVoltage f s) ∨
    (2 ≤ f.length ∧ frameByte f 1 ≠ 0x03#8 ∧ frameByte f 1 ≠ 0x04#8 ∧
      selectDecode f s = s.raiseOutcome .ignored) := by
  by_cases h : f.length < 2
  · exact .inl ⟨h, by simp [selectDecode, frameCode_noKey h, runtFrame]⟩
  · have h2 : 2 ≤ f.length := by omega
    simp only [selectDecode, frameCode_key h2, ignoreFrame]
    by_cases h3 : frameByte f 1 = 0x03#8
    · exact .inr (.inl ⟨h2, h3, if_pos h3⟩)
    · by_cases h4 : frameByte f 1 = 0x04#8
      · exact .inr (.inr (.inl ⟨h2, h4, by rw [if_neg h3, if_pos h4]⟩))
      · exact .inr (.inr (.inr ⟨h2, h3, h4, by rw [if_neg h3, if_neg h4]⟩))

/-- A decode touches the field sets, the counters, the result and STICKY only, and commits at most one
set: `selectDecode` in one shape (R151, R160, R218). -/
theorem selectDecode_shape (f : Memory) (s : State) :
    ∃ t c, selectDecode f s = State.raiseOutcome c t ∧ c ≠ .none ∧
      (t = s ∨ (t = s.commitBasic f ∧ c = .basicOk) ∨ (t = s.commitCells f ∧ c = .cellOk)) := by
  rcases selectDecode_cases f s with ⟨_, h⟩ | ⟨_, _, h⟩ | ⟨_, _, h⟩ | ⟨_, _, _, h⟩
  · exact ⟨s, .runt, h, by decide, .inl rfl⟩
  · rcases basicInfo_cases f s with ⟨_, g⟩ | ⟨_, _, g⟩ | ⟨_, _, _, g⟩ | ⟨_, _, _, _, g⟩ | ⟨_, _, _, _, g⟩
    · exact ⟨s, .invalidShort, h.trans g, by decide, .inl rfl⟩
    · exact ⟨s, .invalidStart, h.trans g, by decide, .inl rfl⟩
    · exact ⟨s, .deviceError, h.trans g, by decide, .inl rfl⟩
    · exact ⟨s, .invalidNtc, h.trans g, by decide, .inl rfl⟩
    · exact ⟨s.commitBasic f, .basicOk, h.trans g, by decide, .inr (.inl ⟨rfl, rfl⟩)⟩
  · rcases cellVoltage_cases f s with ⟨_, g⟩ | ⟨_, g⟩
    · exact ⟨s, .invalidShort, h.trans g, by decide, .inl rfl⟩
    · exact ⟨s.commitCells f, .cellOk, h.trans g, by decide, .inr (.inr ⟨rfl, rfl⟩)⟩
  · exact ⟨s, .ignored, h, by decide, .inl rfl⟩

end Sys2Proof.Machine
end

