-- ==== Sys2Proof/Laws/Memory.lean ====
section
/-! SUPPORT. The frame buffer: reading after storing, and the bound `Memory.wf` kept by every operation
that writes the buffer. -/

namespace Sys2Proof.Machine

@[simp] theorem wf_nil (cap : Nat) : Memory.wf cap [] = true := by simp [Memory.wf]

/-- Reset's buffer is well formed. -/
theorem reset_wf : Memory.wf State.reset.cfg.bufMax State.reset.buf = true := by decide

/-- The stored byte is read back at the old length (R62). -/
theorem read_storeByte_same (b : Byte) (s : State) :
    Memory.read (s.storeByte b).buf s.buf.length = some b := by
  simp [Memory.read]

/-- The bytes before it are read as before (R62). -/
theorem read_storeByte_other (b : Byte) (s : State) (i : Nat) (h : i < s.buf.length) :
    Memory.read (s.storeByte b).buf i = Memory.read s.buf i := by
  simp [Memory.read, List.getElem?_append_left h]

/-- A byte stored with room left keeps the bound (R13). -/
theorem storeByte_wf (b : Byte) (s : State) (cap : Nat) (hw : Memory.wf cap s.buf = true)
    (hne : s.buf.length ≠ cap) : Memory.wf cap (s.storeByte b).buf = true := by
  simp only [Memory.wf, decide_eq_true_eq, storeByte_buf, List.length_append, List.length_cons,
    List.length_nil] at *
  omega

theorem emptyBuffer_wf (cap : Nat) (s : State) : Memory.wf cap s.emptyBuffer.buf = true := by simp

theorem clearAssembler_wf (cap : Nat) (s : State) : Memory.wf cap s.clearAssembler.buf = true := by simp

theorem hardReset_wf (cap : Nat) (s : State) : Memory.wf cap s.hardReset.buf = true := by simp

end Sys2Proof.Machine
end

