-- ==== Sys2Proof/Laws/Assembler.lean ====
section
/-! SUPPORT. Everything a beat can do, said once (R130, R218). -/

namespace Sys2Proof.Machine

/-- In DISCARD (R134). -/
theorem pushBeat_discard {s : State} (hm : s.mode = .discard) (b : Byte) (last : Bool) :
    pushBeat b last s = dropBeat last s := by
  simp [pushBeat, hm]

/-- At a full buffer (R133). -/
theorem pushBeat_full {s : State} (hm : s.mode = .accum) (hl : s.buf.length = s.cfg.bufMax) (b : Byte)
    (last : Bool) : pushBeat b last s = overflowBeat last s := by
  simp [pushBeat, hm, hl]

/-- A beat that is stored and does not terminate (R130). -/
theorem pushBeat_store {s : State} (hm : s.mode = .accum) (hl : s.buf.length ≠ s.cfg.bufMax) {b : Byte}
    {last : Bool} (ht : ¬(last = true ∧ b = 0x77#8)) : pushBeat b last s = s.storeByte b := by
  simp only [pushBeat, hm, if_neg hl, acceptBeat, if_neg ht]

/-- The terminating beat (R131, R132). -/
theorem pushBeat_terminate {s : State} (hm : s.mode = .accum) (hl : s.buf.length ≠ s.cfg.bufMax) :
    pushBeat 0x77#8 true s = dispatchFrame (s.buf ++ [0x77#8]) s.emptyBuffer := by
  simp only [pushBeat, hm, if_neg hl]
  rfl

/-- A beat is dropped, overflows, is stored, or is stored and dispatches (R218). -/
theorem pushBeat_cases (b : Byte) (last : Bool) (s : State) :
    (s.mode = .discard ∧ pushBeat b last s = dropBeat last s) ∨
    (s.mode = .accum ∧ s.buf.length = s.cfg.bufMax ∧ pushBeat b last s = overflowBeat last s) ∨
    (s.mode = .accum ∧ s.buf.length ≠ s.cfg.bufMax ∧ ¬(last = true ∧ b = 0x77#8) ∧
      pushBeat b last s = s.storeByte b) ∨
    (s.mode = .accum ∧ s.buf.length ≠ s.cfg.bufMax ∧ last = true ∧ b = 0x77#8 ∧
      pushBeat b last s = dispatchFrame (s.buf ++ [0x77#8]) s.emptyBuffer) := by
  cases hm : s.mode with
  | discard => exact .inl ⟨rfl, pushBeat_discard hm b last⟩
  | accum =>
    by_cases hl : s.buf.length = s.cfg.bufMax
    · exact .inr (.inl ⟨rfl, hl, pushBeat_full hm hl b last⟩)
    · by_cases ht : last = true ∧ b = 0x77#8
      · obtain ⟨rfl, rfl⟩ := ht
        exact .inr (.inr (.inr ⟨rfl, hl, rfl, rfl, pushBeat_terminate hm hl⟩))
      · exact .inr (.inr (.inl ⟨rfl, hl, ht, pushBeat_store hm hl ht⟩))

/-- What no beat changes. -/
theorem pushBeat_outside (b : Byte) (last : Bool) (s : State) :
    (pushBeat b last s).cfg = s.cfg ∧ (pushBeat b last s).irqEn = s.irqEn ∧
    (pushBeat b last s).encCmd = s.encCmd ∧ (pushBeat b last s).pending = s.pending ∧
    (pushBeat b last s).readData = s.readData := by
  rcases pushBeat_cases b last s with ⟨_, h⟩ | ⟨_, _, h⟩ | ⟨_, _, _, h⟩ | ⟨_, _, _, _, h⟩
  · rw [h]; cases last <;> simp [dropBeat]
  · rw [h]; cases last <;> simp [overflowBeat]
  · rw [h]; simp
  · rw [h, dispatchFrame]
    obtain ⟨t, c, e, _, rfl | ⟨rfl, _⟩ | ⟨rfl, _⟩⟩ :=
      selectDecode_shape (s.buf ++ [0x77#8]) (s.emptyBuffer.recordFrame (s.buf ++ [0x77#8])) <;>
    simp [e]

/-- A decode does not depend on the stimuli still to come. -/
theorem selectDecode_setPending (f : Memory) (s : State) (l : List Stimulus) :
    selectDecode f (s.setPending l) = (selectDecode f s).setPending l := by
  simp only [selectDecode, basicInfo, cellVoltage, ignoreFrame, runtFrame]
  cases frameCode f with
  | key k => simp only []; split_ifs <;> rfl
  | htw w => rfl
  | noKey => rfl

/-- Nor does a beat. -/
theorem pushBeat_setPending (b : Byte) (last : Bool) (s : State) (l : List Stimulus) :
    pushBeat b last (s.setPending l) = (pushBeat b last s).setPending l := by
  rcases pushBeat_cases b last s with ⟨hm, h⟩ | ⟨hm, hl, h⟩ | ⟨hm, hl, ht, h⟩ | ⟨hm, hl, rfl, rfl, h⟩
  · rw [h, pushBeat_discard (s := s.setPending l) hm]; cases last <;> rfl
  · rw [h, pushBeat_full (s := s.setPending l) hm hl]; cases last <;> rfl
  · rw [h, pushBeat_store (s := s.setPending l) hm hl ht]; rfl
  · rw [h, pushBeat_terminate (s := s.setPending l) hm hl]
    exact selectDecode_setPending (s.buf ++ [0x77#8])
      (s.emptyBuffer.recordFrame (s.buf ++ [0x77#8])) l

end Sys2Proof.Machine
end

