-- ==== Sys2Proof/Laws/Bits.lean ====
section
/-! SUPPORT. Taking fields out of words that were put together from fields, and back. -/

namespace Sys2Proof

variable {w v n : Nat}

/-- A field above the lower part is a field of the upper part. -/
theorem extract_append_upper (x : BitVec w) (y : BitVec v) (k n : Nat) (h : v ≤ k) :
    (x ++ y).extractLsb' k n = x.extractLsb' (k - v) n := by
  apply BitVec.eq_of_getLsbD_eq
  intro i hi
  have e : k + i - v = k - v + i := by omega
  simp [BitVec.getLsbD_append, hi, show ¬ k + i < v by omega, e]

/-- A field inside the lower part is a field of it. -/
theorem extract_append_lower (x : BitVec w) (y : BitVec v) (k n : Nat) (h : k + n ≤ v) :
    (x ++ y).extractLsb' k n = y.extractLsb' k n := by
  apply BitVec.eq_of_getLsbD_eq
  intro i hi
  simp [BitVec.getLsbD_append, hi, show k + i < v by omega]

/-- The field that is the whole word. -/
theorem extract_whole (x : BitVec w) : x.extractLsb' 0 w = x := by
  apply BitVec.eq_of_getLsbD_eq
  intro i hi
  simp [hi]

/-- A word is its upper field above its lower field. -/
theorem append_extract (x : BitVec (w + v)) : x.extractLsb' v w ++ x.extractLsb' 0 v = x := by
  apply BitVec.eq_of_getLsbD_eq
  intro i hi
  simp only [BitVec.getLsbD_append, BitVec.getLsbD_extractLsb']
  split
  · simp [*]
  · have : i - v < w := by omega
    simp only [this, decide_true, Bool.true_and]
    congr 1
    omega

/-- Two adjacent fields are one field. -/
theorem extract_append_extract (x : BitVec n) (k : Nat) :
    x.extractLsb' (k + v) w ++ x.extractLsb' k v = x.extractLsb' k (w + v) := by
  apply BitVec.eq_of_getLsbD_eq
  intro i hi
  simp only [BitVec.getLsbD_append, BitVec.getLsbD_extractLsb', hi, decide_true, Bool.true_and]
  split
  · simp [*]
  · have : i - v < w := by omega
    simp only [this, decide_true, Bool.true_and]
    congr 1
    omega

/-- A word put together from two fields, as a number. -/
theorem toNat_append_eq (x : BitVec w) (y : BitVec v) :
    (x ++ y).toNat = x.toNat * 2 ^ v + y.toNat := by
  rw [BitVec.toNat_append, ← Nat.shiftLeft_add_eq_or_of_lt y.isLt, Nat.shiftLeft_eq]

/-- A field of a word, as a number. -/
theorem toNat_extract (x : BitVec w) (k n : Nat) :
    (x.extractLsb' k n).toNat = x.toNat / 2 ^ k % 2 ^ n := by
  rw [BitVec.extractLsb'_toNat, Nat.shiftRight_eq_div_pow]

/-- A field of a field. -/
theorem extract_extract (x : BitVec w) (k n j m : Nat) (h : j + m ≤ n) :
    (x.extractLsb' k n).extractLsb' j m = x.extractLsb' (k + j) m := by
  apply BitVec.eq_of_getLsbD_eq
  intro i hi
  have e : k + (j + i) = k + j + i := by omega
  simp [hi, show j + i < n by omega, e]

end Sys2Proof
end

