-- ==== Sys2Proof/Laws/Outcome.lean ====
section
/-! SUPPORT. The decode a dispatch selects, against the cause table: the result is `resultOf`, and a field
set is committed exactly when the result says so (R210, R211, R217). -/

namespace Sys2Proof.Machine

/-- The mask of an outcome has the one bit of the table of R211. -/
theorem outcomeBit_getLsbD (c : ResultCode) (k : Nat) :
    (outcomeBit c).getLsbD k = true ↔ stickyIndex c = some k := by
  by_cases hk : k < 6
  · interval_cases k <;> cases c <;> decide
  · rw [BitVec.getLsbD_of_ge _ _ (by omega)]
    cases c <;> simp [stickyIndex] <;> omega

theorem resultOf_runt {f : Memory} (h : f.length = 1) : resultOf f = .runt := if_pos h

/-- For the Basic Info key the result is the first failing check's (R153). -/
theorem resultOf_basic {f : Memory} (h : 2 ≤ f.length) (hk : frameByte f 1 = 0x03#8) :
    resultOf f =
      if f.length < 34 then .invalidShort
      else if frameByte f 0 ≠ 0xDD#8 then .invalidStart
      else if frameByte f 2 ≠ 0x00#8 then .deviceError
      else if 27 + 2 * (frameByte f 26).toNat > f.length then .invalidNtc
      else .basicOk := by
  have h1 : f.length ≠ 1 := by omega
  have hk' : f.getD 1 0#8 = 0x03#8 := hk
  rw [resultOf, if_neg h1, if_pos hk']
  rfl

theorem resultOf_cell {f : Memory} (h : 2 ≤ f.length) (hk : frameByte f 1 = 0x04#8) :
    resultOf f = if f.length ≤ 6 then .invalidShort else .cellOk := by
  have h1 : f.length ≠ 1 := by omega
  have hk' : f.getD 1 0#8 = 0x04#8 := hk
  have h3 : f.getD 1 0#8 ≠ 0x03#8 := by
    rw [hk']
    decide
  rw [resultOf, if_neg h1, if_neg h3, if_pos hk']

theorem resultOf_other {f : Memory} (h : 2 ≤ f.length) (h3 : frameByte f 1 ≠ 0x03#8)
    (h4 : frameByte f 1 ≠ 0x04#8) : resultOf f = .ignored := by
  have h1 : f.length ≠ 1 := by omega
  have h3' : f.getD 1 0#8 ≠ 0x03#8 := h3
  have h4' : f.getD 1 0#8 ≠ 0x04#8 := h4
  rw [resultOf, if_neg h1, if_neg h3', if_neg h4']

/-- A decode raises the table's result, on the state it was given or on the state with the field set of a
valid frame committed. -/
theorem selectDecode_result {f : Memory} (hf : f ≠ []) (s : State) :
    ∃ t, selectDecode f s = State.raiseOutcome (resultOf f) t ∧
      ((resultOf f ≠ .none ∧ resultOf f ≠ .basicOk ∧ resultOf f ≠ .cellOk ∧ t = s) ∨
        (resultOf f = .basicOk ∧ ValidBasic f ∧ t = s.commitBasic f) ∨
        (resultOf f = .cellOk ∧ ValidCells f ∧ t = s.commitCells f)) := by
  have pos := List.length_pos_of_ne_nil hf
  rcases selectDecode_cases f s with ⟨a, h⟩ | ⟨a, b, h⟩ | ⟨a, b, h⟩ | ⟨a, b, c, h⟩
  · rw [h, resultOf_runt (by omega)]
    exact ⟨s, rfl, .inl (by simp)⟩
  · rw [h, resultOf_basic a b]
    rcases basicInfo_cases f s with ⟨x, g⟩ | ⟨x, y, g⟩ | ⟨x, y, z, g⟩ | ⟨x, y, z, u, g⟩ | ⟨x, y, z, u, g⟩
    · rw [g, if_pos x]
      exact ⟨s, rfl, .inl (by simp)⟩
    · rw [g, if_neg (by omega), if_pos y]
      exact ⟨s, rfl, .inl (by simp)⟩
    · rw [g, if_neg (by omega), if_neg (not_not.mpr y), if_pos z]
      exact ⟨s, rfl, .inl (by simp)⟩
    · rw [g, if_neg (by omega), if_neg (not_not.mpr y), if_neg (not_not.mpr z), if_pos (by omega)]
      exact ⟨s, rfl, .inl (by simp)⟩
    · rw [g, if_neg (by omega), if_neg (not_not.mpr y), if_neg (not_not.mpr z), if_neg (by omega)]
      exact ⟨_, rfl, .inr (.inl ⟨rfl, ⟨x, y, z, u⟩, rfl⟩)⟩
  · rw [h, resultOf_cell a b]
    rcases cellVoltage_cases f s with ⟨x, g⟩ | ⟨x, g⟩
    · rw [g, if_pos (by omega)]
      exact ⟨s, rfl, .inl (by simp)⟩
    · rw [g, if_neg (by omega)]
      exact ⟨_, rfl, .inr (.inr ⟨rfl, x, rfl⟩)⟩
  · rw [h, resultOf_other a b c]
    exact ⟨s, rfl, .inl (by simp)⟩

end Sys2Proof.Machine
end

