-- ==== Sys2Proof/Laws/PerInstr.lean ====
section
/-! SUPPORT. The statement made of every instruction as syntax: its encoding lies in its own row of
spec/opcode_table.json. -/

namespace Sys2Proof.Laws.EncodeRow

/-- The code is a word whose field of `n` bits from bit `lo` has the value the row's `fixed` entry gives. -/
def Fixed (lo n value : Nat) : Code → Prop
  | .htw w => w.extractLsb' lo n = BitVec.ofNat n value
  | .key _ => False
  | .noKey => False

/-- A well-formed instruction's code has its row's fixed fields, and where the row leaves words or keys to
another row it is none of those. -/
def Statement (i : Instr) : Prop :=
  i.wellFormed = true →
    match i with
    | .push _ _ => Fixed 9 23 524288 (encode i) ∧ ¬ Fixed 0 32 0x10000177 (encode i)
    | .dispatch => Fixed 0 32 0x10000177 (encode i)
    | .basicInfo => encode i = .key 0x03#8
    | .cellVoltage => encode i = .key 0x04#8
    | .ignore _ => ∃ k, encode i = .key k ∧ k ≠ 0x03#8 ∧ k ≠ 0x04#8
    | .runt => encode i = .noKey
    | .rd _ => Fixed 28 4 2 (encode i) ∧ Fixed 0 12 0 (encode i)
    | .wrCtrl _ _ => Fixed 14 18 49153 (encode i)
    | .wrStatus _ _ => Fixed 14 18 49154 (encode i)
    | .wrIrqEn _ _ => Fixed 14 18 49155 (encode i)
    | .wrOther _ _ =>
      Fixed 28 4 3 (encode i) ∧ ¬ Fixed 14 18 49153 (encode i) ∧ ¬ Fixed 14 18 49154 (encode i) ∧
        ¬ Fixed 14 18 49155 (encode i)
    | .enc _ => Fixed 8 24 4194304 (encode i)

/-- The part of a word above its lower `v` bits. -/
theorem upper_append {w v : Nat} (x : BitVec w) (y : BitVec v) : (x ++ y).extractLsb' v w = x := by
  rw [extract_append_upper _ _ _ _ (Nat.le_refl v), Nat.sub_self, extract_whole]

/-- The lower part of a word. -/
theorem lower_append {w v : Nat} (x : BitVec w) (y : BitVec v) : (x ++ y).extractLsb' 0 v = y := by
  rw [extract_append_lower _ _ _ _ (by omega), extract_whole]

theorem push (last : Bool) (data : Byte) : Statement (.push last data) := by
  intro h
  simp only [Instr.wellFormed, Bool.not_eq_true', Bool.and_eq_false_iff, beq_eq_false_iff_ne] at h
  refine ⟨?_, fun e => ?_⟩
  · show BitVec.extractLsb' 9 23 (0x1#4 ++ 0#19 ++ BitVec.ofBool last ++ data) = _
    rw [extract_append_upper _ _ _ _ (by decide), upper_append]
    rfl
  · have e' : BitVec.extractLsb' 0 32 (0x1#4 ++ 0#19 ++ BitVec.ofBool last ++ data) = 0x10000177#32 := e
    rw [extract_whole] at e'
    have hl := congrArg (fun w : Word => w.extractLsb' 8 1) e'
    have hd := congrArg (fun w : Word => w.extractLsb' 0 8) e'
    simp only [lower_append] at hd
    rcases h with rfl | h
    · rw [extract_append_upper _ _ _ _ (by decide)] at hl
      revert hl
      decide
    · exact h hd

theorem dispatch : Statement .dispatch := fun _ => rfl

theorem basicInfo : Statement .basicInfo := fun _ => rfl

theorem cellVoltage : Statement .cellVoltage := fun _ => rfl

theorem ignore (key : Byte) : Statement (.ignore key) := by
  intro h
  simp only [Instr.wellFormed, Bool.and_eq_true, bne_iff_ne] at h
  exact ⟨key, rfl, h⟩

theorem runt : Statement .runt := fun _ => rfl

theorem rd (addr : Addr) : Statement (.rd addr) := by
  refine fun _ => ⟨?_, lower_append (0x2#4 ++ addr) 0#12⟩
  show BitVec.extractLsb' 28 4 (0x2#4 ++ addr ++ 0#12) = _
  rw [extract_append_upper _ _ _ _ (by decide), upper_append]

/-- The register index of a WR word is bits [27:14]. -/
theorem write_word_index (addr : Addr) (imm : Imm12) :
    (0x3#4 ++ addr ++ imm).extractLsb' 14 18 = 0x3#4 ++ wordIndex addr := by
  rw [extract_append_upper _ _ _ _ (by decide)]
  have e : 0x3#4 ++ addr = (0x3#4 ++ wordIndex addr) ++ addr.extractLsb' 0 2 := by
    apply BitVec.eq_of_toNat_eq
    simp only [toNat_append_eq, wordIndex, toNat_extract]
    have := addr.isLt
    simp only [BitVec.toNat_ofNat]
    omega
  show BitVec.extractLsb' 2 18 (0x3#4 ++ addr) = _
  rw [e]
  exact upper_append _ _

theorem wordIndex_append (index : BitVec 14) (lane : BitVec 2) : wordIndex (index ++ lane) = index :=
  upper_append index lane

theorem wrCtrl (lane : BitVec 2) (imm : Imm12) : Statement (.wrCtrl lane imm) := by
  refine fun _ => (write_word_index (1#14 ++ lane) imm).trans ?_
  rw [wordIndex_append]
  rfl

theorem wrStatus (lane : BitVec 2) (imm : Imm12) : Statement (.wrStatus lane imm) := by
  refine fun _ => (write_word_index (2#14 ++ lane) imm).trans ?_
  rw [wordIndex_append]
  rfl

theorem wrIrqEn (lane : BitVec 2) (imm : Imm12) : Statement (.wrIrqEn lane imm) := by
  refine fun _ => (write_word_index (3#14 ++ lane) imm).trans ?_
  rw [wordIndex_append]
  rfl

/-- A WR word with the fixed field of a register's row has that register's index. -/
theorem wordIndex_of_fixed (addr : Addr) (imm : Imm12) (index : BitVec 14)
    (h : (0x3#4 ++ addr ++ imm).extractLsb' 14 18 = 0x3#4 ++ index) : wordIndex addr = index := by
  rw [write_word_index] at h
  rw [← lower_append 0x3#4 (wordIndex addr), h, lower_append]

theorem wrOther (addr : Addr) (imm : Imm12) : Statement (.wrOther addr imm) := by
  intro h
  simp only [Instr.wellFormed, Bool.and_eq_true, bne_iff_ne] at h
  obtain ⟨⟨h1, h2⟩, h3⟩ := h
  refine ⟨?_, fun e => h1 (wordIndex_of_fixed addr imm _ e), fun e => h2 (wordIndex_of_fixed addr imm _ e),
    fun e => h3 (wordIndex_of_fixed addr imm _ e)⟩
  show BitVec.extractLsb' 28 4 (0x3#4 ++ addr ++ imm) = _
  rw [extract_append_upper _ _ _ _ (by decide), upper_append]

theorem enc (cmd : Byte) : Statement (.enc cmd) := fun _ => upper_append (0x4#4 ++ 0#20) cmd

end Sys2Proof.Laws.EncodeRow
end

