-- ==== Sys2Proof/Laws/Registers.lean ====
section
/-! SUPPORT. The register map: which register each address reaches (R27, R64), and what a bus write
does. -/

namespace Sys2Proof.Machine

/-- The word address of an access (R64). -/
theorem wordAddr_toNat (a : Addr) : (a &&& 0xFFFC#16).toNat = a.toNat / 4 * 4 := by
  have e : a &&& 0xFFFC#16 = (a >>> 2) <<< 2 := by
    apply BitVec.eq_of_getLsbD_eq
    intro i hi
    interval_cases i <;> simp
  have := a.isLt
  rw [e]
  simp only [BitVec.toNat_shiftLeft, BitVec.toNat_ushiftRight, Nat.shiftRight_eq_div_pow,
    Nat.shiftLeft_eq]
  omega

/-- An address that reaches word address `w` is masked to it (R64). -/
theorem wordAddr_of_reaches {a : Addr} {w : Nat} (h : Reaches a w) :
    a &&& 0xFFFC#16 = BitVec.ofNat 16 w := by
  apply BitVec.eq_of_toNat_eq
  rw [wordAddr_toNat, h, BitVec.toNat_ofNat]
  have := a.isLt
  simp only [Reaches] at h
  omega

/-- The register an address reaches, from its word address (R27). -/
theorem regAt_of_reaches {a : Addr} {w : Nat} (h : Reaches a w) (cfg : Config) :
    regAt cfg a = match regTable.lookup (BitVec.ofNat 16 w) with
      | some r => r
      | none => arrayReg cfg w := by
  have e : (BitVec.ofNat 16 w).toNat = w := by
    rw [← wordAddr_of_reaches h, wordAddr_toNat]
    exact h
  (simp only [regAt, wordAddr_of_reaches h, e]) <;> rfl

/-- The addresses of the table end at 0x005C and leave out 0x001C (R27). -/
theorem regTable_lookup_none {w : Nat} (hw : w < 65536) (h : w = 0x001C ∨ 0x0060 ≤ w) :
    regTable.lookup (BitVec.ofNat 16 w) = none := by
  rcases h with rfl | h
  · decide
  · have ne : ∀ n : Nat, n < 0x0060 → (BitVec.ofNat 16 w == BitVec.ofNat 16 n) = false := by
      intro n hn
      rw [beq_eq_false_iff_ne]
      intro e
      have := congrArg BitVec.toNat e
      simp only [BitVec.toNat_ofNat] at this
      omega
    simp only [regTable, List.lookup_cons, List.lookup_nil]
    simp only [ne 0x0000 (by decide), ne 0x0004 (by decide), ne 0x0008 (by decide),
      ne 0x000C (by decide), ne 0x0010 (by decide), ne 0x0014 (by decide), ne 0x0018 (by decide),
      ne 0x0020 (by decide), ne 0x0024 (by decide), ne 0x0028 (by decide), ne 0x002C (by decide),
      ne 0x0030 (by decide), ne 0x0034 (by decide), ne 0x0038 (by decide), ne 0x003C (by decide),
      ne 0x0040 (by decide), ne 0x0044 (by decide), ne 0x0048 (by decide), ne 0x004C (by decide),
      ne 0x0050 (by decide), ne 0x0054 (by decide), ne 0x0058 (by decide), ne 0x005C (by decide)]

/-- Outside the table the arrays decide (R51 to R53). -/
theorem regAt_array {a : Addr} {w : Nat} (h : Reaches a w) (hw : w = 0x001C ∨ 0x0060 ≤ w)
    (cfg : Config) : regAt cfg a = arrayReg cfg w := by
  have := a.isLt
  have hlt : w < 65536 := by simp only [Reaches] at h; omega
  rw [regAt_of_reaches h, regTable_lookup_none hlt hw]

/-- What a bus write does at each address: it acts at three registers only (R191 to R194). -/
theorem regWrite_cases (a : Addr) (d : Word) (s : State) :
    (regAt s.cfg a = .ctrl ∧ regWrite a d s = ctrlWrite d s) ∨
    (regAt s.cfg a = .status ∧ regWrite a d s = s.ackSticky d) ∨
    (regAt s.cfg a = .irqEn ∧ regWrite a d s = s.setIrqEn d) ∨
    (regAt s.cfg a ≠ .ctrl ∧ regAt s.cfg a ≠ .status ∧ regAt s.cfg a ≠ .irqEn ∧ regWrite a d s = s) := by
  simp only [regWrite]
  cases regAt s.cfg a <;> simp

/-- Past the table an address reaches an array entry or nothing. -/
theorem arrayReg_cases (cfg : Config) (a : Nat) :
    (∃ i, arrayReg cfg a = .ntcTemp i) ∨ (∃ j, arrayReg cfg a = .cellMv j) ∨ arrayReg cfg a = .unmapped := by
  simp only [arrayReg]
  split_ifs <;> simp

/-- An address masked to `w` reaches word address `w` (R64). -/
theorem reaches_of_wordAddr {a : Addr} {w : Nat} (hw : w < 65536)
    (h : a &&& 0xFFFC#16 = BitVec.ofNat 16 w) : Reaches a w := by
  have e := wordAddr_toNat a
  rw [h, BitVec.toNat_ofNat, Nat.mod_eq_of_lt hw] at e
  exact e.symm

/-- What a table lookup answers is in the table. -/
theorem mem_of_lookup {α β : Type} [BEq α] [LawfulBEq α] {l : List (α × β)} {a : α} {b : β}
    (h : l.lookup a = some b) : (a, b) ∈ l := by
  induction l with
  | nil => simp at h
  | cons p l ih =>
    rw [List.lookup_cons] at h
    split at h
    · next e => cases h; rw [eq_of_beq e]; simp
    · exact List.mem_cons_of_mem _ (ih h)

/-- A register of the table is reached at its one address only (R27). -/
theorem reaches_of_regAt {a : Addr} {r : Reg} {cfg : Config} {w : Nat}
    (h : regAt cfg a = r) (hw : (BitVec.ofNat 16 w, r) ∈ regTable) (hlt : w < 65536)
    (u : ∀ x, (x, r) ∈ regTable → x = BitVec.ofNat 16 w)
    (hn : (∀ i, r ≠ .ntcTemp i) ∧ (∀ j, r ≠ .cellMv j) ∧ r ≠ .unmapped) : Reaches a w := by
  simp only [regAt] at h
  split at h
  · next r' e =>
    subst h
    exact reaches_of_wordAddr hlt (u _ (mem_of_lookup e))
  · rcases arrayReg_cases cfg (a &&& 0xFFFC#16).toNat with ⟨i, e⟩ | ⟨j, e⟩ | e <;> rw [h] at e <;> simp_all

/-- CTRL is reached at 0x0004 only. -/
theorem reaches_of_regAt_ctrl {a : Addr} {cfg : Config} (h : regAt cfg a = .ctrl) : Reaches a 0x0004 :=
  reaches_of_regAt h (by decide) (by decide) (by simp [regTable]) (by simp)

/-- STATUS is reached at 0x0008 only. -/
theorem reaches_of_regAt_status {a : Addr} {cfg : Config} (h : regAt cfg a = .status) : Reaches a 0x0008 :=
  reaches_of_regAt h (by decide) (by decide) (by simp [regTable]) (by simp)

/-- IRQ_EN is reached at 0x000C only. -/
theorem reaches_of_regAt_irqEn {a : Addr} {cfg : Config} (h : regAt cfg a = .irqEn) : Reaches a 0x000C :=
  reaches_of_regAt h (by decide) (by decide) (by simp [regTable]) (by simp)

/-- A view does not depend on what is still to come, on the pins or on the last value read. -/
theorem view_setPending (s : State) (l : List Stimulus) (r : Reg) : view (s.setPending l) r = view s r := by
  cases r <;> rfl

end Sys2Proof.Machine
end

