-- ==== Sys2Proof/Laws/Step.lean ====
section
/-! SUPPORT. Everything a step can do, said once (R73, R101). -/

namespace Sys2Proof.Machine

/-- If a step answers `t`: nothing was presented and nothing changes, or an edge is run, or a word's
instruction is. -/
theorem step_cases {s t : State} (h : step s = .next t) :
    (s.pending = [] ∧ t = s) ∨
    (∃ p rest, s.pending = .edge p :: rest ∧ t = clockEdge p (s.setPending rest)) ∨
    (∃ w rest i, s.pending = .htw w :: rest ∧ decodeHtw w = .ok i ∧
      exec i (s.setPending rest) = .next t) := by
  rcases hp : s.pending with _ | ⟨p | p, rest⟩
  · simp only [step, hp, Host.Outcome.next.injEq] at h
    exact .inl ⟨rfl, h.symm⟩
  · refine .inr (.inr ?_)
    cases hd : decodeHtw p with
    | ok i =>
      simp only [step, hp, hd] at h
      exact ⟨p, rest, i, rfl, hd, h⟩
    | error e => simp [step, hp, hd] at h
  · simp only [step, hp, Host.Outcome.next.injEq] at h
    exact .inr (.inl ⟨p, rest, rfl, h.symm⟩)

/-- The state each instruction leads to, in the shared operations. -/
theorem exec_eq (i : Instr) (s : State) :
    exec i s = .next (match i with
      | .push last data => pushBeat data last s
      | .dispatch => pushBeat 0x77#8 true s
      | .basicInfo => basicInfo s.buf s.emptyBuffer
      | .cellVoltage => cellVoltage s.buf s.emptyBuffer
      | .ignore _ => s.emptyBuffer.raiseOutcome .ignored
      | .runt => s.emptyBuffer.raiseOutcome .runt
      | .rd addr => s.latchRead (regRead addr s)
      | .wrCtrl _ imm => ctrlWrite (immWord imm) s
      | .wrStatus _ imm => s.ackSticky (immWord imm)
      | .wrIrqEn _ imm => s.setIrqEn (immWord imm)
      | .wrOther _ _ => s
      | .enc cmd => s.presentCmd cmd) := by
  cases i <;> rfl

/-- A host transaction word never decodes to a frame kind: those are reached through DISPATCH only
(R96, R102). -/
theorem decodeHtw_not_frameKind {w : Word} {i : Instr} (h : decodeHtw w = .ok i) :
    i ≠ .basicInfo ∧ i ≠ .cellVoltage ∧ (∀ k, i ≠ .ignore k) ∧ i ≠ .runt := by
  have beat : ∀ l b, beatInstr l b ≠ .basicInfo ∧ beatInstr l b ≠ .cellVoltage ∧
      (∀ k, beatInstr l b ≠ .ignore k) ∧ beatInstr l b ≠ .runt := by
    intro l b
    simp only [beatInstr]
    split <;> simp
  have write : ∀ a m, writeInstr a m ≠ .basicInfo ∧ writeInstr a m ≠ .cellVoltage ∧
      (∀ k, writeInstr a m ≠ .ignore k) ∧ writeInstr a m ≠ .runt := by
    intro a m
    simp only [writeInstr]
    split_ifs <;> simp
  simp only [decodeHtw] at h
  split_ifs at h <;> cases h
  · exact beat _ _
  · simp
  · exact write _ _
  · simp

/-- The state a step's instruction leads to: every instruction answers one. -/
theorem exec_total (i : Instr) (s : State) : ∃ t, exec i s = .next t := by
  cases i <;> exact ⟨_, rfl⟩

end Sys2Proof.Machine
end

