-- ==== Sys2Proof/Laws/Snapshot.lean ====
section
/-! SUPPORT. What the Driver's reads do (R190, R196). -/

namespace Sys2Proof.Machine

/-- The Driver's read is the instruction RD on the block after the edges due before it. -/
theorem driverRead_exec (a : Addr) (r : DriverRun) :
    exec (.rd a) (runEdges (r.between.headD []) r.block) = .next (driverRead a r).2.block := rfl

@[simp] theorem driverRead_value (a : Addr) (r : DriverRun) :
    (driverRead a r).1 = regRead a (runEdges (r.between.headD []) r.block) := rfl

@[simp] theorem driverRead_between (a : Addr) (r : DriverRun) :
    (driverRead a r).2.between = r.between.tail := rfl

@[simp] theorem runEdges_nil (s : State) : runEdges [] s = s := rfl

theorem runEdges_cons (p : Pins) (es : List Pins) (s : State) :
    runEdges (p :: es) s = runEdges es (clockEdge p s) := rfl

theorem runEdges_append (es fs : List Pins) (s : State) :
    runEdges (es ++ fs) s = runEdges fs (runEdges es s) := List.foldl_append

/-- Each read uses up one entry of `between`. -/
@[simp] theorem driverReads_between (as : List Addr) (r : DriverRun) :
    (driverReads as r).2.between = r.between.drop as.length := by
  induction as generalizing r with
  | nil => rfl
  | cons a as ih =>
    show (driverReads as (driverRead a r).2).2.between = _
    rw [ih, driverRead_between, List.drop_tail]
    rfl

@[simp] theorem driverReads_length (as : List Addr) (r : DriverRun) :
    (driverReads as r).1.length = as.length := by
  induction as generalizing r with
  | nil => rfl
  | cons a as ih => exact congrArg (· + 1) (ih _)

/-- A pass uses up at least one entry of `between`. -/
theorem snapshotPass_between (r : DriverRun) :
    ∃ n, 1 ≤ n ∧ (snapshotPass r).rest.between = r.between.drop n := by
  simp only [snapshotPass, driverRead_between, driverReads_between, ← List.drop_one, List.drop_drop]
  refine ⟨_, ?_, rfl⟩
  omega

/-- What the last value read holds is in no register. -/
@[simp] theorem regRead_latchRead (a : Addr) (v : Word) (s : State) :
    regRead a (s.latchRead v) = regRead a s := by
  show view (s.latchRead v) (regAt s.cfg a) = view s (regAt s.cfg a)
  cases regAt s.cfg a <;> rfl

/-- With nothing between the reads a read leaves its value on `reg_rdata` and changes nothing else. -/
theorem driverRead_quiet (a : Addr) (s : State) (l : List Stimulus) :
    driverRead a { block := s, between := [], trace := l } =
      (regRead a s,
        { block := s.latchRead (regRead a s), between := [], trace := l ++ stimulusOf (.rd a) }) := by
  simp [driverRead]

/-- With nothing between the reads a list of reads gives the views of the one state. -/
theorem driverReads_quiet (as : List Addr) (s : State) (l : List Stimulus) :
    ∃ v, driverReads as { block := s, between := [], trace := l } =
      (as.map fun a => regRead a s,
        { block := s.latchRead v, between := [], trace := l ++ stimuliOf (as.map .rd) }) := by
  induction as generalizing s l with
  | nil => exact ⟨s.readData, by simp [driverReads, stimuliOf, State.latchRead]⟩
  | cons a as ih =>
    obtain ⟨v, e⟩ := ih (s.latchRead (regRead a s)) (l ++ stimulusOf (.rd a))
    refine ⟨v, ?_⟩
    rw [driverReads, driverRead_quiet]
    dsimp only
    rw [e]
    simp only [regRead_latchRead, stimuliOf, List.map_cons, List.flatMap_cons, List.append_assoc]
    rfl

/-- The loop returns the first pass whose two readings of GEN are equal. -/
theorem snapshotLoop_some {n : Nat} {r : DriverRun} {x : Snapshot × DriverRun}
    (h : snapshotLoop n r = some x) :
    ∃ q : DriverRun, (snapshotPass q).genBefore = (snapshotPass q).genAfter ∧
      x = ((snapshotPass q).snapshot, (snapshotPass q).rest) := by
  induction n generalizing r with
  | zero => cases h
  | succ n ih =>
    simp only [snapshotLoop] at h
    split at h
    · next e => exact ⟨r, e, (Option.some.inj h).symm⟩
    · exact ih h

end Sys2Proof.Machine
end

