-- ==== Sys2Proof/Tests/Slice0.lean ====
section
/-! SUPPORT. Tests: the well-formedness check, decoding of words written out from the spec's formats, one
or two steps per instruction with results from 95_test_vectors.md, and for every obligation with
hypotheses a concrete state and operands that meet them. -/

namespace Sys2Proof.Tests

open Sys2Proof.Machine

/-! ## Helpers -/

/-- The outcome is a next state with the property. -/
def answers (o : Host.Outcome State Fault Refusal) (p : State → Bool) : Bool :=
  match o with
  | .next t => p t
  | .fault _ => false
  | .refused _ => false

/-- The outcome is the refusal of a word for the given reason. -/
def refusedFor (o : Host.Outcome State Fault Refusal) (e : DecodeError) : Bool :=
  match o with
  | .next _ => false
  | .fault _ => false
  | .refused (.noHostOperation r) => r == e
  | .refused (.notModelled _) => false

/-- Frame V-B1 of 95_test_vectors.md without its terminator, with the given start byte, status and NTC
count. -/
def basicBody (start status ntc : Byte) : Memory :=
  [start, 0x03#8, status, 0x1B#8, 0x13#8, 0x88#8, 0xFF#8, 0xCE#8, 0x0F#8, 0xA0#8, 0x17#8, 0x70#8,
   0x00#8, 0x05#8, 0x29#8, 0x21#8, 0x00#8, 0x00#8, 0x00#8, 0x00#8, 0x00#8, 0x00#8, 0x10#8, 0x50#8,
   0x03#8, 0x04#8, ntc, 0x0B#8, 0xA5#8, 0x0B#8, 0xAF#8, 0x00#8, 0x00#8]

/-- Frame V-B1 with those bytes changed. -/
def basicFrame (start status ntc : Byte) : Memory := basicBody start status ntc ++ [0x77#8]

/-- The Cell Voltage frame of E7. -/
def cellFrame : Memory :=
  [0xDD#8, 0x04#8, 0x00#8, 0x04#8, 0x13#8, 0x88#8, 0x13#8, 0x89#8, 0x00#8, 0x00#8, 0x77#8]

/-- A block with BUF_MAX = 34 after reset. -/
def small : State := State.resetWith { bufMax := 34 }

/-- The state with a buffer. -/
def holding (f : Memory) (s : State) : State := { s with buf := f }

/-- The state with stimuli to come. -/
def given (l : List Stimulus) (s : State) : State := { s with pending := l }

/-- STATUS as a read gives it. -/
def status (s : State) : Word := regRead 0x0008#16 s

/-- LAST_FRAME as a read gives it. -/
def lastFrame (s : State) : Word := regRead 0x0010#16 s

/-! ## The well-formedness check -/

theorem test_wellFormed_refuses_terminating_push : (Instr.push true 0x77#8).wellFormed = false := by decide

theorem test_wellFormed_refuses_basic_key : (Instr.ignore 0x03#8).wellFormed = false := by decide

theorem test_wellFormed_refuses_cell_key : (Instr.ignore 0x04#8).wellFormed = false := by decide

theorem test_wellFormed_refuses_ctrl_address : (Instr.wrOther 0x0007#16 1#12).wellFormed = false := by decide

theorem test_wellFormed_refuses_status_address : (Instr.wrOther 0x0008#16 1#12).wellFormed = false := by decide

theorem test_wellFormed_refuses_irqEn_address : (Instr.wrOther 0x000E#16 1#12).wellFormed = false := by decide

/-! ## Decoding (words of 95_test_vectors.md and of the formats R97 to R100) -/

theorem test_decode_push : decodeTableWord 32 0x100001DD = some (.push true 0xDD#8) := by decide

theorem test_decode_push_terminator_not_last : decodeTableWord 32 0x10000077 = some (.push false 0x77#8) := by
  decide

theorem test_decode_dispatch : decodeTableWord 32 0x10000177 = some .dispatch := by decide

theorem test_decode_basicInfo : decodeTableWord 8 0x03 = some .basicInfo := by decide

theorem test_decode_cellVoltage : decodeTableWord 8 0x04 = some .cellVoltage := by decide

theorem test_decode_ignore : decodeTableWord 8 0x77 = some (.ignore 0x77#8) := by decide

theorem test_decode_runt : decodeTableWord 0 0 = some .runt := by decide

theorem test_decode_rd : decodeTableWord 32 0x20023000 = some (.rd 0x0023#16) := by decide

theorem test_decode_wrCtrl : decodeTableWord 32 0x30007001 = some (.wrCtrl 3#2 0x001#12) := by decide

theorem test_decode_wrStatus : decodeTableWord 32 0x3000803F = some (.wrStatus 0#2 0x03F#12) := by decide

theorem test_decode_wrIrqEn : decodeTableWord 32 0x3000C018 = some (.wrIrqEn 0#2 0x018#12) := by decide

theorem test_decode_wrOther : decodeTableWord 32 0x30020FFF = some (.wrOther 0x0020#16 0xFFF#12) := by decide

theorem test_decode_enc : decodeTableWord 32 0x400000A5 = some (.enc 0xA5#8) := by decide

theorem test_encode_push : encode (.push false 0xDD#8) = .htw 0x100000DD#32 := by decide

theorem test_encode_rd : encode (.rd 0x87EC#16) = .htw 0x287EC000#32 := by decide

theorem test_encode_wrCtrl : encode (.wrCtrl 0#2 1#12) = .htw 0x30004001#32 := by decide

theorem test_reserved_words_are_refused :
    decodeHtw 0x0FFFFFFF#32 = .error (.reservedOp 0#4) ∧ decodeHtw 0x50000000#32 = .error (.reservedOp 5#4) ∧
    decodeHtw 0xFFFFFFFF#32 = .error (.reservedOp 15#4) ∧ decodeHtw 0x10000200#32 = .error .pushBitsSet ∧
    decodeHtw 0x18000000#32 = .error .pushBitsSet ∧ decodeHtw 0x20000001#32 = .error .rdBitsSet ∧
    decodeHtw 0x20000800#32 = .error .rdBitsSet ∧ decodeHtw 0x40000100#32 = .error .encBitsSet ∧
    decodeHtw 0x48000000#32 = .error .encBitsSet := by
  decide

theorem test_step_refuses_reserved_word :
    refusedFor (step (State.reset.withFetchWord 32 0x20000001)) .rdBitsSet = true := by decide

/-! ## Steps -/

/-- Section 2.2: a stored beat shows in BUF_LEVEL. -/
theorem test_push_stores :
    answers (step (State.reset.withFetchWord 32 0x100000DD)) (fun t => status t == 0x00010000#32) = true := by
  decide

/-- V-A6: the 35th beat into 34 bytes overflows in the middle of a chunk. -/
theorem test_push_overflows :
    answers (exec (.push false 0x00#8) (holding (List.replicate 34 0x00#8) small))
      (fun t => status t == 0x00001020#32 && t.buf == []) = true := by decide

/-- V-A3: the terminator on an empty buffer is a runt. -/
theorem test_dispatch_runt :
    answers (exec .dispatch State.reset)
      (fun t => lastFrame t == 0x00010008#32 && status t == 0x00000004#32) = true := by decide

/-- V-A4: a frame that fills the buffer is dispatched. -/
theorem test_dispatch_at_last_free_byte :
    answers (exec .dispatch (holding (basicBody 0xDD#8 0x00#8 0x02#8) small))
      (fun t => lastFrame t == 0x00220381#32 && status t == 0x00000101#32) = true := by decide

/-- V-B1 and E4: voltage, current and the two temperatures. -/
theorem test_basicInfo_fields :
    answers (exec .basicInfo (holding (basicFrame 0xDD#8 0x00#8 0x02#8) State.reset))
      (fun t => regRead 0x0020#16 t == 0x00001388#32 && regRead 0x0024#16 t == 0xFFFFFFCE#32 &&
        regRead 0x0404#16 t == 0x00000104#32 && regRead 0x0408#16 t == 0x00000000#32) = true := by decide

/-- Section 2.3, F[26] = 04: 27 + 2N = 35 > 34. -/
theorem test_basicInfo_ntc_extent :
    answers (exec .dispatch (holding (basicBody 0xDD#8 0x00#8 0x04#8) State.reset))
      (fun t => lastFrame t == 0x00220387#32 && status t == 0x00000008#32) = true := by decide

/-- E7: two cells. -/
theorem test_cellVoltage_fields :
    answers (exec .cellVoltage (holding cellFrame State.reset))
      (fun t => regRead 0x8004#16 t == 0x00001389#32 && status t == 0x00000202#32) = true := by decide

/-- Section 2.4, L = 6. -/
theorem test_cellVoltage_short :
    answers (exec .cellVoltage (holding [0xDD#8, 0x04#8, 0x00#8, 0x00#8, 0x00#8, 0x77#8] State.reset))
      (fun t => status t == 0x00000008#32 && !t.cells.valid) = true := by decide

/-- Section 2.5: DD 05 00 00 00 00 77. -/
theorem test_ignore :
    answers (exec .dispatch (holding [0xDD#8, 0x05#8, 0x00#8, 0x00#8, 0x00#8, 0x00#8] State.reset))
      (fun t => lastFrame t == 0x00070583#32 && status t == 0x00000004#32) = true := by decide

/-- Section 2.5: the frame 77, as the table row is presented. -/
theorem test_runt :
    answers (step (State.reset.withFetchWord 0 0)) (fun t => lastFrame t == 0x00010008#32) = true := by decide

/-- V-H1: PARAM. -/
theorem test_rd_param :
    answers (step (State.reset.withFetchWord 32 0x20000000)) (fun t => t.readData == 0x01FC0400#32) = true := by
  decide

/-- E5: MFG_DATE of 0x29, 0x21. -/
theorem test_rd_mfgDate :
    answers (exec .basicInfo (holding (basicFrame 0xDD#8 0x00#8 0x02#8) State.reset))
      (fun t => regRead 0x0034#16 t == 0x07E40901#32) = true := by decide

/-- V-A7: a clear ends DISCARD. -/
theorem test_wrCtrl_clears :
    answers (step { State.reset.withFetchWord 32 0x30004001 with mode := .discard, buf := [0xDD#8] })
      (fun t => t.mode == .accum && t.buf == []) = true := by decide

/-- V-H14: ack 0x01. -/
theorem test_wrStatus_acknowledges :
    answers (step { State.reset.withFetchWord 32 0x30008001 with sticky := 0b001001#6 })
      (fun t => t.sticky == 0b001000#6) = true := by decide

/-- V-H11: enabling a set bit raises irq at once. -/
theorem test_wrIrqEn_raises :
    answers (step { State.reset.withFetchWord 32 0x3000C004 with sticky := 0b000100#6 })
      (fun t => t.irq && t.irqEn == 0b000100#6) = true := by decide

/-- V-H9: a write to PARAM has no effect. -/
theorem test_wrOther_ignored :
    answers (step (State.reset.withFetchWord 32 0x30000FFF)) (fun t => t == State.reset) = true := by decide

/-- Section 2.1: CMD 0x03. -/
theorem test_enc :
    answers (step (State.reset.withFetchWord 32 0x40000003)) (fun t => t.encFrame == 0xDDA50300FFFD77#56) = true := by
  decide

/-- Section 2.1: CMD 0x00. -/
theorem test_enc_zero :
    answers (step (State.reset.withFetchWord 32 0x40000000)) (fun t => t.encFrame == 0xDDA50000FF0077#56) = true := by
  decide

/-- R74: a W1C write and a runt on the same edge leave the bit set. -/
def ackAndRunt : Pins :=
  { writePins 0x0008#16 0x3F#32 0x00#8 with rxValid := true, rxData := 0x77#8, rxLast := true }

theorem test_edge_event_outlives_acknowledge :
    answers (step (given [.edge ackAndRunt] { State.reset with sticky := 0b000101#6 }))
      (fun t => t.sticky == 0b000100#6) = true := by decide

/-- R241: a reset edge discards the beat that comes with it. -/
theorem test_edge_reset :
    answers (step (given [.edge { ackAndRunt with rst := true }] (holding [0xDD#8] { small with irqEn := 0x3F#6 })))
      (fun t => t == small) = true := by decide

/-- R196: a Cell Voltage commit between the first GEN and STATUS makes the loop throw the pass away and run
a second one, which returns CELL_VALID and GEN = 0x0001_0000. -/
theorem test_currentState_retries :
    (match currentState
        { block := holding [0xDD#8, 0x04#8, 0x00#8, 0x00#8, 0x00#8, 0x00#8] State.reset
          between := [[], [beatPins true 0x77#8 0x00#8]], trace := [] } with
      | some (snap, q) => snap.status == 0x00000202#32 && q.block.readData == 0x00010000#32 &&
          q.trace.length == 39
      | none => false) = true := by decide

/-! ## Witnesses: for each obligation with hypotheses, values that meet all of them together -/

/-- A terminating beat, as a word and on the pins. -/
def lastBeat : Stimulus := .htw 0x10000177#32

/-- A stored beat on the pins, with a CLEAR_ASM write. -/
def clearAndStore : Pins :=
  { writePins 0x0007#16 0x00000001#32 0x05#8 with rxValid := true, rxData := 0x77#8, rxLast := false }

/-- 33 bytes in a buffer of 34: one byte is free. -/
def almostFull : State := holding (List.replicate 33 0x00#8) small

/-- 34 bytes in a buffer of 34. -/
def full : State := holding (List.replicate 34 0x00#8) small

/-- The reset state with every interrupt enabled. -/
def enabled : State := { State.reset with irqEn := 0x3F#6 }

theorem witness_inv : Inv enabled where
  config := by decide
  buffer := by decide
  discard := fun _ => rfl
  record := by simp [RecordOk, enabled, State.reset, State.resetWith]
  basic := .inl ⟨rfl, rfl⟩
  cells := .inl ⟨rfl, rfl⟩
  basicGen := fun _ => rfl
  cellGen := fun _ => rfl

theorem witness_DecodeOfEncodeIsTheInstruction :
    (Instr.push true 0x76#8).wellFormed = true ∧ (Instr.push false 0x77#8).wellFormed = true ∧
    (Instr.ignore 0x02#8).wellFormed = true ∧ (Instr.ignore 0x05#8).wellFormed = true ∧
    (Instr.wrOther 0x0003#16 0xFFF#12).wellFormed = true ∧
    (Instr.wrOther 0x0010#16 0x000#12).wellFormed = true := by
  decide

theorem witness_EncodeOfDecodeIsTheCode :
    decode (.htw 0x3000FFFF#32) = .ok (.wrIrqEn 3#2 0xFFF#12) ∧ decode (.key 0xFF#8) = .ok (.ignore 0xFF#8) := by
  decide

theorem witness_ExactlyReservedWordsAreRefused :
    (given [.htw 0x0FFFFFFF#32] State.reset).pending = .htw 0x0FFFFFFF#32 :: [] ∧
    (∀ w ∈ [0x0FFFFFFF#32, 0x50000000#32, 0x10000200#32, 0x20000001#32, 0x40000100#32], ∃ e,
      decodeHtw w = .error e) ∧
    (∀ w ∈ [0x10000000#32, 0x100001FF#32, 0x2FFFF000#32, 0x3FFFFFFF#32, 0x400000FF#32], ∃ i,
      decodeHtw w = .ok i) := by
  refine ⟨rfl, ?_, ?_⟩ <;> intro w hw <;> fin_cases hw <;> exact ⟨_, rfl⟩

theorem witness_EveryKeySelectsItsFrameKind :
    ([0x77#8] : Memory) ≠ [] ∧ [0x77#8].length < 2 ∧ 2 ≤ [0x03#8, 0x77#8].length ∧
    [0x00#8, 0x03#8, 0x77#8].getD 1 0#8 = 0x03#8 ∧ [0x00#8, 0x04#8, 0x77#8].getD 1 0#8 = 0x04#8 ∧
    [0x03#8, 0x77#8].getD 1 0#8 ≠ 0x03#8 ∧ [0x03#8, 0x77#8].getD 1 0#8 ≠ 0x04#8 := by
  decide

theorem witness_StepRunsTheDecodedWord :
    (given [.htw 0x20000000#32] State.reset).pending = .htw 0x20000000#32 :: [] ∧
    decode (.htw 0x20000000#32) = .ok (.rd 0x0000#16) := by
  decide

theorem witness_TerminatingStepRunsTheDecodedFrameKind :
    (given [lastBeat] almostFull).pending = .htw 0x10000177#32 :: [] ∧ almostFull.mode = .accum ∧
    almostFull.buf.length + 1 = almostFull.cfg.bufMax ∧
    decode (frameCode (almostFull.buf ++ [0x77#8])) = .ok (.ignore 0x00#8) ∧
    decode (frameCode (small.buf ++ [0x77#8])) = .ok .runt := by
  decide

theorem witness_OnlyReservedWordsStopAStep :
    State.reset.pending = [] ∧ decode (.htw 0x10000200#32) = .error .pushBitsSet := by
  decide

theorem witness_SameEdgeBusThenBeat :
    clearAndStore.rst = false ∧
    (given [.edge clearAndStore] State.reset).pending = .edge clearAndStore :: [] := by
  decide

theorem witness_SameEdgeEventOutlivesAcknowledge :
    ∃ s t u : State, ackAndRunt.rst = false ∧ ackAndRunt.regReq = true ∧ ackAndRunt.regWe = true ∧
      Reaches ackAndRunt.regAddr 0x0008 ∧ ackAndRunt.rxValid = true ∧ s.pending = .edge ackAndRunt :: [] ∧
      step s = .next t ∧
      step { s with sticky := 0#6, pending := .edge { ackAndRunt with regReq := false } :: [] } = .next u ∧
      u.sticky.getLsbD 2 = true :=
  ⟨given [.edge ackAndRunt] State.reset, _, _, rfl, rfl, rfl, rfl, rfl, rfl, rfl, rfl, by decide⟩

theorem witness_SameEdgeClearThenStore :
    small.cfg.Wf ∧ clearAndStore.rst = false ∧ clearAndStore.regReq = true ∧ clearAndStore.regWe = true ∧
    Reaches clearAndStore.regAddr 0x0004 ∧ clearAndStore.regWdata.getLsbD 0 = true ∧
    clearAndStore.rxValid = true ∧ ¬(clearAndStore.rxLast = true ∧ clearAndStore.rxData = 0x77#8) ∧
    (given [.edge clearAndStore] full).pending = .edge clearAndStore :: [] := by
  decide

theorem witness_WordsAreNotationForPortTransactions :
    (Instr.wrOther 0x0020#16 0xFFF#12).wellFormed = true ∧
    hostPins 0x00#8 (.wrOther 0x0020#16 0xFFF#12) = some (writePins 0x0020#16 0x00000FFF#32 0x00#8) ∧
    hostPins 0x00#8 .dispatch = some (beatPins true 0x77#8 0x00#8) := by
  decide

theorem witness_ResetEdgeResetsAndDiscards :
    ({ ackAndRunt with rst := true } : Pins).rst = true ∧
    (given [.edge { ackAndRunt with rst := true }, lastBeat] enabled).pending =
      .edge { ackAndRunt with rst := true } :: [lastBeat] := by
  decide

/-- For each command code at a boundary of the clauses: 0, 1 and 255. -/
theorem witness_encoder (c : Byte) : ∃ t, exec (.enc c) State.reset = .next t := ⟨_, rfl⟩

theorem witness_ChecksumNegatesTheCommand : ∃ t, exec (.enc 0x00#8) full = .next t := ⟨_, rfl⟩

theorem witness_ChecksumPairIsSixteenBitNegation :
    (∃ t, exec (.enc 0x01#8) State.reset = .next t) ∧ 1 ≤ (0x01#8 : Byte).toNat ∧
    1 ≤ (0xFF#8 : Byte).toNat ∧ (0x00#8 : Byte).toNat = 0 :=
  ⟨⟨_, rfl⟩, by decide, by decide, by decide⟩

theorem witness_EncoderIsIndependent :
    (∃ t₁ t₂, exec (.enc 0x04#8) State.reset = .next t₁ ∧ exec (.enc 0x04#8) full = .next t₂) ∧
    (∀ c, Instr.dispatch ≠ .enc c) ∧ ∃ t, exec .dispatch almostFull = .next t :=
  ⟨⟨_, _, rfl, rfl⟩, by simp, ⟨_, rfl⟩⟩

theorem witness_PushStoresTheByte :
    almostFull.mode = .accum ∧ almostFull.buf.length < almostFull.cfg.bufMax ∧
    ¬(true = true ∧ (0x76#8 : Byte) = 0x77#8) ∧ ¬(false = true ∧ (0x77#8 : Byte) = 0x77#8) := by
  decide

theorem witness_FullBufferOverflows : full.mode = .accum ∧ full.buf.length = full.cfg.bufMax := by decide

theorem witness_DiscardDropsToTheEndOfTheChunk :
    ({ small with mode := .discard } : State).cfg.Wf ∧ ({ small with mode := .discard } : State).mode = .discard ∧
    ({ small with mode := .discard } : State).buf = [] ∧ ¬(true = true ∧ (0x76#8 : Byte) = 0x77#8) ∧
    ∃ t, step (given [.htw 0x10000000#32] full) = .next t ∧ t.mode = .discard :=
  ⟨by decide, rfl, rfl, by decide, _, rfl, by decide⟩

theorem witness_TerminatingBeatDispatchesTheBuffer :
    almostFull.mode = .accum ∧ almostFull.buf.length < almostFull.cfg.bufMax ∧ small.mode = .accum ∧
    small.buf.length < small.cfg.bufMax ∧ (small.buf ++ [0x77#8]).length = 1 ∧
    ([0x00#8] ++ [0x77#8] : Memory).length = 2 ∧ ([0x00#8, 0x00#8] ++ [0x77#8] : Memory).length = 3 := by
  decide

theorem witness_OnlyTerminatingBeatsCompleteFrames :
    decode (.htw 0x10000177#32) = .ok .dispatch ∧ (∃ t, exec .dispatch full = .next t) ∧
    ¬(Instr.dispatch = .dispatch ∧ full.mode = .accum ∧ full.buf.length ≠ full.cfg.bufMax) ∧
    decode (.htw 0x10000077#32) = .ok (.push false 0x77#8) :=
  ⟨by decide, ⟨_, rfl⟩, by decide, by decide⟩

theorem witness_OneChunkIsOneDispatch :
    small.mode = .accum ∧ small.buf = [] ∧ (basicFrame 0xDD#8 0x00#8 0x02#8).length = small.cfg.bufMax ∧
    (basicFrame 0xDD#8 0x00#8 0x02#8).getLast? = some 0x77#8 := by
  decide

/-- A split that respects the condition of R139 (V-A2) and one that does not. -/
theorem witness_FragmentationInvariance :
    State.reset.cfg.Wf ∧ State.reset.mode = .accum ∧ State.reset.buf = [] ∧
    (∀ cs ∈ [[[0xDD#8, 0x04#8], [0x00#8, 0x77#8]], [[0xDD#8, 0x77#8], [0x77#8]]],
      (∀ c ∈ cs, c ≠ []) ∧ cs.flatten.length ≤ State.reset.cfg.bufMax ∧ cs.flatten.getLast? = some 0x77#8) := by
  decide

theorem witness_FeedRunsItsBeats :
    (given (stimuliOf (feed [0xDD#8, 0x77#8])) State.reset).pending =
      [.htw 0x100000DD#32, .htw 0x10000177#32] := by
  decide

theorem witness_BasicInfoCommits :
    ValidBasic (holding (basicFrame 0xDD#8 0x00#8 0x03#8) small).buf ∧
    ValidBasic (basicFrame 0xDD#8 0x00#8 0x00#8) := by
  decide

/-- One frame for each check, each at the boundary the check before it lets pass. -/
theorem witness_BasicInfoFirstFailingCheckWins :
    (basicBody 0xDC#8 0x80#8 0x04#8).length < 34 ∧
    (34 ≤ (basicFrame 0xDC#8 0x80#8 0x04#8).length ∧ (basicFrame 0xDC#8 0x80#8 0x04#8).getD 0 0#8 ≠ 0xDD#8) ∧
    (34 ≤ (basicFrame 0xDD#8 0x80#8 0x04#8).length ∧ (basicFrame 0xDD#8 0x80#8 0x04#8).getD 0 0#8 = 0xDD#8 ∧
      (basicFrame 0xDD#8 0x80#8 0x04#8).getD 2 0#8 ≠ 0x00#8) ∧
    (34 ≤ (basicFrame 0xDD#8 0x00#8 0x04#8).length ∧ (basicFrame 0xDD#8 0x00#8 0x04#8).getD 0 0#8 = 0xDD#8 ∧
      (basicFrame 0xDD#8 0x00#8 0x04#8).getD 2 0#8 = 0x00#8 ∧
      (basicFrame 0xDD#8 0x00#8 0x04#8).length < 27 + 2 * ((basicFrame 0xDD#8 0x00#8 0x04#8).getD 26 0#8).toNat) := by
  decide

theorem witness_CellVoltageCommits :
    (holding [0xDD#8, 0x04#8, 0x00#8, 0x00#8, 0x00#8, 0x00#8, 0x77#8] State.reset).buf.length > 6 ∧
    cellFrame.length > 6 := by
  decide

theorem witness_ShortCellVoltageIsInvalid :
    (holding [0xDD#8, 0x04#8, 0x00#8, 0x00#8, 0x00#8, 0x77#8] State.reset).buf.length ≤ 6 := by decide

theorem witness_FailedDispatchIsPrecise :
    ∃ t, almostFull.mode = .accum ∧ almostFull.buf.length < almostFull.cfg.bufMax ∧
      exec .dispatch almostFull = .next t ∧ t.last.result ≠ .basicOk ∧ t.last.result ≠ .cellOk :=
  ⟨_, rfl, by decide, rfl, by decide, by decide⟩

theorem witness_DecodeDependsOnTheFrameOnly :
    ∃ t₁ t₂, small.mode = .accum ∧ enabled.mode = .accum ∧ small.buf.length < small.cfg.bufMax ∧
      enabled.buf.length < enabled.cfg.bufMax ∧ small.buf = enabled.buf ∧
      exec .dispatch small = .next t₁ ∧ exec .dispatch enabled = .next t₂ :=
  ⟨_, _, rfl, rfl, by decide, by decide, rfl, rfl, rfl⟩

theorem witness_CommitIsAtomicAndCounted :
    (∃ t, step (given [lastBeat] (holding (basicBody 0xDD#8 0x00#8 0x02#8) small)) = .next t) ∧
    ∀ p rest, (given [lastBeat] (holding (basicBody 0xDD#8 0x00#8 0x02#8) small)).pending = .edge p :: rest →
      p.rst = false :=
  ⟨⟨_, rfl⟩, fun _ _ h => by cases h⟩

/-- The lowest and the highest byte address of each of the seven registers. -/
theorem witness_ReadBookkeepingRegisters :
    Inv enabled ∧ ∀ w ∈ [0x0000, 0x0004, 0x0008, 0x000C, 0x0010, 0x0014, 0x0018],
      Reaches (BitVec.ofNat 16 w) w ∧ Reaches (BitVec.ofNat 16 (w + 3)) w :=
  ⟨witness_inv, by decide⟩

/-- The lowest and the highest byte address of each of the fifteen registers. -/
theorem witness_ReadFieldRegisters :
    Inv enabled ∧ ∀ w ∈ [0x0020, 0x0024, 0x0028, 0x002C, 0x0030, 0x0038, 0x003C, 0x0040, 0x0044, 0x0048,
      0x004C, 0x0050, 0x0054, 0x0058, 0x005C],
      Reaches (BitVec.ofNat 16 w) w ∧ Reaches (BitVec.ofNat 16 (w + 3)) w :=
  ⟨witness_inv, by decide⟩

theorem witness_ReadManufactureDate :
    Reaches 0x0034#16 0x0034 ∧ Reaches 0x0037#16 0x0034 ∧ 0x29 = (0x2921#16).toNat / 256 ∧
    0x21 = (0x2921#16).toNat % 256 ∧ State.reset.basic.valid = false ∧
    (basicOf (basicFrame 0xDD#8 0x00#8 0x02#8)).valid = true := by
  decide

theorem witness_ReadTemperature :
    Reaches 0x0400#16 (0x0400 + 4 * 0) ∧ Reaches 0x07FB#16 (0x0400 + 4 * 254) ∧
    1 < (basicOf (basicFrame 0xDD#8 0x00#8 0x02#8)).ntcN.toNat ∧
    ¬ 2 < (basicOf (basicFrame 0xDD#8 0x00#8 0x02#8)).ntcN.toNat := by
  decide

theorem witness_ReadCellVoltage :
    State.reset.cfg.Wf ∧ 507 < State.reset.cfg.cellMax ∧ Reaches 0x87EF#16 (0x8000 + 4 * 507) ∧
    Reaches 0x8000#16 (0x8000 + 4 * 0) ∧ 1 < (cellsOf cellFrame).cellN ∧ ¬ 2 < (cellsOf cellFrame).cellN := by
  decide

/-- The ends of each unmapped range. -/
theorem witness_UnmappedAddressesReadZeroAndIgnoreWrites :
    ∀ w ∈ [0x001C, 0x0060, 0x03FC, 0x07FC, 0x7FFC, 0x87F0, 0xFFFC],
      Reaches (BitVec.ofNat 16 w) w ∧ Reaches (BitVec.ofNat 16 (w + 3)) w ∧
      (w = 0x001C ∨ (0x0060 ≤ w ∧ w ≤ 0x03FC) ∨ (0x07FC ≤ w ∧ w ≤ 0x7FFC) ∨
        0x8000 + 4 * State.reset.cfg.cellMax ≤ w) := by
  decide

theorem witness_ControlWriteClearsTheAssembler :
    (0x001#12 : Imm12).getLsbD 0 = true ∧ (0xFFE#12 : Imm12).getLsbD 0 = false := by decide

/-- Both ends of each register's four byte addresses, and the addresses on either side of them. -/
theorem witness_BusWriteActsAtThreeRegistersOnly :
    Reaches 0x0004#16 0x0004 ∧ Reaches 0x0007#16 0x0004 ∧ Reaches 0x0008#16 0x0008 ∧ Reaches 0x000B#16 0x0008 ∧
    Reaches 0x000C#16 0x000C ∧ Reaches 0x000F#16 0x000C ∧
    ∀ a ∈ [0x0003#16, 0x0010#16, 0xFFFF#16], ¬ Reaches a 0x0004 ∧ ¬ Reaches a 0x0008 ∧ ¬ Reaches a 0x000C := by
  simp [Reaches]

theorem witness_HostNeverChangesDecodedState :
    ∀ i ∈ [Instr.rd 0x0020#16, .wrCtrl 0#2 1#12, .wrOther 0x0020#16 0xFFF#12, .enc 0x03#8],
      hostOperation i = true := by
  decide

theorem witness_AccessesAreIdempotentBeatsAreNot :
    hostOperation (.wrStatus 0#2 0x03F#12) = true ∧ (∃ t, exec (.wrStatus 0#2 0x03F#12) enabled = .next t) ∧
    (holding (List.replicate 32 0x00#8) small).mode = .accum ∧
    (holding (List.replicate 32 0x00#8) small).buf.length + 1 < small.cfg.bufMax :=
  ⟨rfl, ⟨_, rfl⟩, rfl, by decide⟩

theorem witness_OtherWritesHaveNoEffect :
    (∀ a ∈ [0x0003#16, 0x0010#16], ¬ Reaches a 0x0004 ∧ ¬ Reaches a 0x0008 ∧ ¬ Reaches a 0x000C) ∧
    (0x30010FFF#32).toNat = 3 * 2 ^ 28 + (0x0010#16).toNat * 2 ^ 12 + (0xFFF#12).toNat := by
  simp [Reaches]

/-- One step that clears STICKY[2] in each of the three ways. -/
theorem witness_StickyIsClearedOnlyByAcknowledgeOrReset :
    ∀ x ∈ [Stimulus.htw 0x30008004#32, .edge { idlePins 0x00#8 with rst := true },
        .edge (writePins 0x000B#16 0x00000004#32 0x00#8)],
      ({ State.reset with sticky := 0b000100#6 } : State).sticky.getLsbD 2 = true ∧
      answers (step (given [x] { State.reset with sticky := 0b000100#6 }))
        (fun t => !t.sticky.getLsbD 2) = true := by
  decide

theorem witness_ResetRegistersReadZero :
    ({ bufMax := 34 } : Config).Wf ∧ ({ bufMax := 16384 } : Config).Wf ∧ Reaches 0x0003#16 0x0000 ∧
    ¬ Reaches 0x0004#16 0x0000 := by
  decide

theorem witness_ResetMeetsTheInvariant : ({ bufMax := 34 } : Config).Wf ∧ ¬ ({ bufMax := 33 } : Config).Wf := by
  decide

theorem witness_StepKeepsTheInvariant : Inv enabled ∧ ∃ t, step enabled = .next t := ⟨witness_inv, _, rfl⟩

theorem witness_EqualGenerationsMeanOneCommit :
    ∃ t, 1 < 65536 ∧
      (∀ p ∈ (given [.htw 0x20018000#32] State.reset).pending.take 1, Stimulus.isReset p = false) ∧
      runSteps 1 (given [.htw 0x20018000#32] State.reset) = .next t ∧
      (given [.htw 0x20018000#32] State.reset).basicGen = t.basicGen ∧
      (given [.htw 0x20018000#32] State.reset).cellGen = t.cellGen :=
  ⟨_, by decide, by decide, rfl, rfl, rfl⟩

theorem witness_OutsideAndParameterAreLeftAlone :
    (∃ t, step (given [.edge ackAndRunt] small) = .next t) ∧ (∃ t, exec .dispatch small = .next t) ∧
    (∀ c, Instr.dispatch ≠ .enc c) ∧ ∀ a, Instr.dispatch ≠ .rd a :=
  ⟨⟨_, rfl⟩, ⟨_, rfl⟩, by simp, by simp⟩

/-- An idle edge before the first read, and a beat that is stored before the second. -/
def interleaved : DriverRun :=
  { block := enabled, between := [[idlePins 0x00#8], [beatPins false 0xDD#8 0x00#8]], trace := [] }

theorem witness_CurrentStateAloneReadsTheState : Inv enabled := witness_inv

theorem witness_CurrentStateRunsAsSteps :
    interleaved.trace = [] ∧ ∃ snap q, currentState interleaved = some (snap, q) :=
  ⟨rfl, _, _, rfl⟩

theorem witness_CurrentStateIsOneCommit :
    Inv interleaved.block ∧ interleaved.trace = [] ∧ (∀ es ∈ interleaved.between, ∀ p ∈ es, p.rst = false) ∧
    interleaved.between.flatten.length < 65536 ∧ ∃ snap q, currentState interleaved = some (snap, q) :=
  ⟨witness_inv, rfl, by decide, by decide, _, _, rfl⟩

end Sys2Proof.Tests
end

section
/-! PROOFS. The reset values meet each clause of the invariant, so the reset state meets the invariant. -/

namespace Sys2Proof.Machine

/-- The records after reset (result none, length 0, nothing valid) agree with the cause table (R210, R240). -/
theorem recordOk_reset (cap : Nat) :
    RecordOk cap { result := .none, key := 0#8, keyValid := false, len := 0#16 } { byte := 0#8, valid := false } := by
  simp [RecordOk]

/-- Both field sets are allowed to hold their reset values (R160). -/
theorem basicOk_empty (cap : Nat) : BasicOk cap BasicSet.empty := .inl ⟨rfl, rfl⟩

theorem cellsOk_empty (cap : Nat) : CellsOk cap CellSet.empty := .inl ⟨rfl, rfl⟩

/-- Reset gives the invariant for every parameter in its range, which is the one clause reset itself does not
establish. -/
theorem inv_resetWith {cfg : Config} (hcfg : cfg.Wf) : Inv (State.resetWith cfg) where
  config := hcfg
  buffer := wf_nil cfg.bufMax
  discard := fun _ => rfl
  record := recordOk_reset cfg.bufMax
  basic := basicOk_empty cfg.bufMax
  cells := cellsOk_empty cfg.bufMax
  basicGen := fun _ => rfl
  cellGen := fun _ => rfl

/-- The default BUF_MAX of 1024 lies in the parameter's range (R5). -/
theorem standard_wf : Config.standard.Wf := by decide

/-- Settles O50: reset meets the invariant for every parameter in range, and the default is one. -/
theorem resetMeetsTheInvariant : Obligations.ResetMeetsTheInvariant :=
  ⟨fun _ hcfg => inv_resetWith hcfg, inv_resetWith standard_wf⟩

end Sys2Proof.Machine
end

section
/-! PROOFS. A step seen as its phases: a reset, or host operations and then at most one beat. -/

namespace Sys2Proof.Machine

/-- `u` comes from `s` by the shared operations through which register accesses, the encoder port and the
intake of a stimulus act: everything a transaction does but a reset and a beat. -/
inductive HostOps (s : State) : State → Prop where
  | refl : HostOps s s
  | setPending {u : State} (l : List Stimulus) (h : HostOps s u) : HostOps s (u.setPending l)
  | presentCmd {u : State} (c : Byte) (h : HostOps s u) : HostOps s (u.presentCmd c)
  | latchRead {u : State} (v : Word) (h : HostOps s u) : HostOps s (u.latchRead v)
  | clearAssembler {u : State} (h : HostOps s u) : HostOps s u.clearAssembler
  | ackSticky {u : State} (d : Word) (h : HostOps s u) : HostOps s (u.ackSticky d)
  | setIrqEn {u : State} (d : Word) (h : HostOps s u) : HostOps s (u.setIrqEn d)

/-- A write to CTRL clears the assembler or does nothing (R191). -/
theorem hostOps_ctrlWrite {s u : State} (d : Word) (h : HostOps s u) : HostOps s (ctrlWrite d u) := by
  simp only [ctrlWrite]
  split
  · exact h.clearAssembler
  · exact h

/-- A bus write is one of three host operations or nothing (R191 to R194). -/
theorem hostOps_regWrite {s u : State} (a : Addr) (d : Word) (h : HostOps s u) :
    HostOps s (regWrite a d u) := by
  rcases regWrite_cases a d u with ⟨_, e⟩ | ⟨_, e⟩ | ⟨_, e⟩ | ⟨_, _, _, e⟩ <;> rw [e]
  · exact hostOps_ctrlWrite d h
  · exact h.ackSticky d
  · exact h.setIrqEn d
  · exact h

/-- The bus transaction of an edge (R82). -/
theorem hostOps_busTransaction {s u : State} (p : Pins) (h : HostOps s u) :
    HostOps s (busTransaction p u) := by
  simp only [busTransaction]
  split_ifs
  · exact hostOps_regWrite _ _ h
  · exact h.latchRead _
  · exact h

/-- The beat of an edge is a beat or none (R80). -/
theorem beatTransaction_cases (p : Pins) (s : State) :
    beatTransaction p s = s ∨ beatTransaction p s = pushBeat p.rxData p.rxLast s := by
  simp only [beatTransaction]
  split
  · exact .inr rfl
  · exact .inl rfl

/-- The instruction of a word is a host operation or one beat, since no word spells a frame kind (R96,
R102). -/
theorem exec_word_phases {w : Word} {i : Instr} {s t : State} (hd : decodeHtw w = .ok i)
    (h : exec i s = .next t) : HostOps s t ∨ ∃ b last, t = pushBeat b last s := by
  obtain ⟨noBasic, noCell, noIgnore, noRunt⟩ := decodeHtw_not_frameKind hd
  rw [exec_eq, Host.Outcome.next.injEq] at h
  subst h
  cases i with
  | push last data => exact .inr ⟨data, last, rfl⟩
  | dispatch => exact .inr ⟨0x77#8, true, rfl⟩
  | basicInfo => exact absurd rfl noBasic
  | cellVoltage => exact absurd rfl noCell
  | ignore key => exact absurd rfl (noIgnore key)
  | runt => exact absurd rfl noRunt
  | rd addr => exact .inl (HostOps.refl.latchRead _)
  | wrCtrl lane imm => exact .inl (hostOps_ctrlWrite _ .refl)
  | wrStatus lane imm => exact .inl (HostOps.refl.ackSticky _)
  | wrIrqEn lane imm => exact .inl (HostOps.refl.setIrqEn _)
  | wrOther addr imm => exact .inl .refl
  | enc cmd => exact .inl (HostOps.refl.presentCmd _)

theorem HostOps.trans {s u t : State} (hsu : HostOps s u) (hut : HostOps u t) : HostOps s t := by
  induction hut with
  | refl => exact hsu
  | setPending l _ ih => exact ih.setPending l
  | presentCmd c _ ih => exact ih.presentCmd c
  | latchRead v _ ih => exact ih.latchRead v
  | clearAssembler _ ih => exact ih.clearAssembler
  | ackSticky d _ ih => exact ih.ackSticky d
  | setIrqEn d _ ih => exact ih.setIrqEn d

/-- Everything a step can do: it takes a reset edge, or it runs host operations and then at most one beat,
in the order of R74. -/
theorem step_phases {s t : State} (h : step s = .next t) :
    (∃ p rest, s.pending = .edge p :: rest ∧ p.rst = true ∧
      t = ((s.setPending rest).presentCmd p.encCmd).hardReset) ∨
    ∃ u, HostOps s u ∧ (t = u ∨ ∃ b last, t = pushBeat b last u) := by
  rcases step_cases h with ⟨_, rfl⟩ | ⟨p, rest, hp, rfl⟩ | ⟨w, rest, i, hp, hd, he⟩
  · exact .inr ⟨t, .refl, .inl rfl⟩
  · by_cases hr : p.rst = true
    · exact .inl ⟨p, rest, hp, hr, if_pos hr⟩
    · have host : HostOps s (busTransaction p ((s.setPending rest).presentCmd p.encCmd)) :=
        hostOps_busTransaction p ((HostOps.refl.setPending rest).presentCmd p.encCmd)
      rw [clockEdge, if_neg hr]
      rcases beatTransaction_cases p (busTransaction p ((s.setPending rest).presentCmd p.encCmd))
        with e | e <;> rw [e]
      · exact .inr ⟨_, host, .inl rfl⟩
      · exact .inr ⟨_, host, .inr ⟨_, _, rfl⟩⟩
  · have taken : HostOps s (s.setPending rest) := HostOps.refl.setPending rest
    rcases exec_word_phases hd he with ops | beat
    · exact .inr ⟨t, taken.trans ops, .inl rfl⟩
    · exact .inr ⟨_, taken, .inr beat⟩

end Sys2Proof.Machine
end

section
/-! PROOFS. The invariant under every operation a step is made of. -/

namespace Sys2Proof.Machine

/-- Host operations keep the invariant: none writes a record or a field set, and a cleared buffer is within
its bound and empty. -/
theorem inv_hostOps {s u : State} (h : HostOps s u) (hs : Inv s) : Inv u := by
  induction h with
  | refl => exact hs
  | setPending l _ ih => exact { ih with }
  | presentCmd c _ ih => exact { ih with }
  | latchRead v _ ih => exact { ih with }
  | clearAssembler _ ih => exact { ih with buffer := wf_nil _, discard := fun _ => rfl }
  | ackSticky d _ ih => exact { ih with }
  | setIrqEn d _ ih => exact { ih with }

/-- A reset keeps the parameter's range and gives every other clause its reset value. -/
theorem inv_hardReset {s : State} (hs : Inv s) : Inv s.hardReset :=
  { inv_resetWith hs.config with }

theorem inv_emptyBuffer {s : State} (hs : Inv s) : Inv s.emptyBuffer :=
  { hs with buffer := wf_nil _, discard := fun _ => rfl }

/-- A byte stored in mode ACCUM with room left (R13). -/
theorem inv_storeByte {s : State} (b : Byte) (hs : Inv s) (hm : s.mode = .accum)
    (hl : s.buf.length ≠ s.cfg.bufMax) : Inv (s.storeByte b) :=
  { hs with
    buffer := storeByte_wf b s _ hs.buffer hl
    discard := fun hd => by simp [hm] at hd }

/-- A mode may be entered with an empty buffer, and ACCUM with any (R134). -/
theorem inv_setMode {s : State} (m : Mode) (hs : Inv s) (h : m = .discard → s.buf = []) :
    Inv (s.setMode m) :=
  { hs with discard := h }

theorem inv_dropBeat {s : State} (last : Bool) (hs : Inv s) : Inv (dropBeat last s) := by
  cases last with
  | false => exact hs
  | true => exact inv_setMode .accum hs nofun

/-- The overflow empties the buffer before it enters DISCARD (R133). -/
theorem inv_overflowBeat {s : State} (last : Bool) (hs : Inv s) : Inv (overflowBeat last s) := by
  have emptied : Inv s.emptyBuffer.raiseOverflow := { inv_emptyBuffer hs with }
  cases last with
  | false => exact inv_setMode .discard emptied fun _ => rfl
  | true => exact emptied

/-- The records a dispatch leaves agree with the cause table: the length, the key and the status byte are the
frame's, and the result is the table's for them (R150, R210). -/
theorem recordOk_dispatch {f : Memory} (hf : f ≠ []) {cap : Nat} (hcap : cap ≤ 16384) (hl : f.length ≤ cap)
    (old : LastFrame) : RecordOk cap { keyRecord f old with result := resultOf f } (statRecord f) := by
  have pos := List.length_pos_of_ne_nil hf
  have len : (BitVec.ofNat 16 f.length).toNat = f.length := by
    rw [BitVec.toNat_ofNat]
    omega
  simp only [RecordOk, keyRecord, statRecord, len]
  refine ⟨hl, by simp, by simp +contextual, by simp, by simp +contextual, ?_⟩
  by_cases h1 : f.length = 1
  · simp [resultOf_runt h1, h1]
  have h2 : 2 ≤ f.length := by omega
  by_cases hb : frameByte f 1 = 0x03#8
  · rw [resultOf_basic h2 hb]
    by_cases short : f.length < 34
    · simp [h2, hb, short]
    have long : 34 ≤ f.length := by omega
    simp only [if_neg short, if_pos h2, if_pos (show 3 ≤ f.length by omega)]
    split_ifs with start status extent
    · exact ⟨hb, long⟩
    · exact ⟨hb, long, status⟩
    · exact ⟨hb, long, not_not.mp status⟩
    · exact ⟨hb, long, not_not.mp status⟩
  by_cases hc : frameByte f 1 = 0x04#8
  · rw [resultOf_cell h2 hc]
    by_cases short : f.length ≤ 6
    · simp [h2, hc, short]
    · simp only [if_neg short, if_pos h2]
      exact ⟨hc, by omega⟩
  · simp [resultOf_other h2 hb hc, h2, hb, hc]

/-- A dispatch keeps the invariant: it writes the records of the frame, and it replaces a field set only by
the values of a frame that passed its checks (R150, R152, R156, R160). -/
theorem inv_dispatchFrame {s : State} (hs : Inv s) {f : Memory} (hf : f ≠ []) (hl : f.length ≤ s.cfg.bufMax) :
    Inv (dispatchFrame f s) := by
  have recorded : Inv (State.raiseOutcome (resultOf f) (s.recordFrame f)) :=
    { hs with record := recordOk_dispatch hf hs.config.2 hl s.last }
  obtain ⟨t, e, ⟨_, _, _, rfl⟩ | ⟨_, valid, rfl⟩ | ⟨_, valid, rfl⟩⟩ := selectDecode_result hf (s.recordFrame f) <;>
    rw [dispatchFrame, e]
  · exact recorded
  · exact { recorded with basic := .inr ⟨rfl, f, valid, hl, rfl⟩, basicGen := nofun }
  · exact { recorded with cells := .inr ⟨rfl, f, valid, hl, rfl⟩, cellGen := nofun }

/-- A beat keeps the invariant, whatever it does of R218. -/
theorem inv_pushBeat {s : State} (b : Byte) (last : Bool) (hs : Inv s) : Inv (pushBeat b last s) := by
  have fits : s.buf.length ≤ s.cfg.bufMax := of_decide_eq_true hs.buffer
  rcases pushBeat_cases b last s with ⟨_, h⟩ | ⟨_, _, h⟩ | ⟨hm, hl, _, h⟩ | ⟨_, hl, _, _, h⟩ <;> rw [h]
  · exact inv_dropBeat last hs
  · exact inv_overflowBeat last hs
  · exact inv_storeByte b hs hm hl
  · refine inv_dispatchFrame (inv_emptyBuffer hs) (by simp) ?_
    simp only [List.length_append, List.length_singleton, emptyBuffer_cfg]
    omega

/-- Settles O51, phase by phase: a reset, the host operations and a beat each keep the invariant. -/
theorem stepKeepsTheInvariant : Obligations.StepKeepsTheInvariant := by
  intro s t hs h
  rcases step_phases h with ⟨p, rest, _, _, rfl⟩ | ⟨u, ops, rfl | ⟨b, last, rfl⟩⟩
  · exact inv_hardReset (inv_hostOps ((HostOps.refl.setPending rest).presentCmd p.encCmd) hs)
  · exact inv_hostOps ops hs
  · exact inv_pushBeat b last (inv_hostOps ops hs)

end Sys2Proof.Machine
end

section
/-! PROOFS. What a step does to the field sets, the parameter, the outside and STICKY. -/

namespace Sys2Proof.Machine

/-! ## The field sets -/

/-- No host operation writes a field set or a counter (R194). -/
theorem hostOps_sameFields {s u : State} (h : HostOps s u) : SameFields s u := by
  induction h with
  | refl => exact ⟨rfl, rfl, rfl, rfl⟩
  | setPending l _ ih => exact ih
  | presentCmd c _ ih => exact ih
  | latchRead v _ ih => exact ih
  | clearAssembler _ ih => exact ih
  | ackSticky d _ ih => exact ih
  | setIrqEn d _ ih => exact ih

/-- From `s` to `t` the field sets and counters stay, or one set is replaced by the values of a valid frame
with its counter, result and STICKY bit (R20, R25, R160). -/
def CommitsAtMostOne (s t : State) : Prop :=
  SameFields s t ∨
  (t.basicGen = s.basicGen + 1#16 ∧ t.last.result = .basicOk ∧ t.sticky.getLsbD 0 = true ∧
    t.cells = s.cells ∧ t.cellGen = s.cellGen ∧ ∃ f, ValidBasic f ∧ t.basic = basicOf f) ∨
  (t.cellGen = s.cellGen + 1#16 ∧ t.last.result = .cellOk ∧ t.sticky.getLsbD 1 = true ∧
    t.basic = s.basic ∧ t.basicGen = s.basicGen ∧ ∃ f, ValidCells f ∧ t.cells = cellsOf f)

/-- A commit is counted from the fields before it, so what leaves them alone may come first. -/
theorem commitsAtMostOne_of_sameFields {s u t : State} (hsu : SameFields s u)
    (hut : CommitsAtMostOne u t) : CommitsAtMostOne s t := by
  obtain ⟨basic, cells, basicGen, cellGen⟩ := hsu
  rwa [CommitsAtMostOne, SameFields, basic, cells, basicGen, cellGen] at hut

/-- The STICKY bit of an outcome is set once the outcome is raised (R151, R211). -/
theorem raiseOutcome_sets_bit (s : State) {c : ResultCode} {k : Nat} (h : stickyIndex c = some k) :
    (s.raiseOutcome c).sticky.getLsbD k = true := by
  simp [(outcomeBit_getLsbD c k).mpr h]

/-- A dispatch commits a set exactly with the success that names it (R152, R156). -/
theorem dispatchFrame_commits {f : Memory} (hf : f ≠ []) (s : State) :
    CommitsAtMostOne s (dispatchFrame f s) := by
  obtain ⟨t, e, ⟨_, _, _, rfl⟩ | ⟨code, valid, rfl⟩ | ⟨code, valid, rfl⟩⟩ :=
    selectDecode_result hf (s.recordFrame f) <;> rw [dispatchFrame, e]
  · exact .inl ⟨rfl, rfl, rfl, rfl⟩
  · rw [code]
    exact .inr (.inl ⟨rfl, rfl, raiseOutcome_sets_bit _ rfl, rfl, rfl, f, valid, rfl⟩)
  · rw [code]
    exact .inr (.inr ⟨rfl, rfl, raiseOutcome_sets_bit _ rfl, rfl, rfl, f, valid, rfl⟩)

/-- Of the things a beat can do only the dispatch writes a field set (R218). -/
theorem pushBeat_commits (b : Byte) (last : Bool) (s : State) : CommitsAtMostOne s (pushBeat b last s) := by
  rcases pushBeat_cases b last s with ⟨_, h⟩ | ⟨_, _, h⟩ | ⟨_, _, _, h⟩ | ⟨_, _, _, _, h⟩ <;> rw [h]
  · cases last <;> exact .inl ⟨rfl, rfl, rfl, rfl⟩
  · cases last <;> exact .inl ⟨rfl, rfl, rfl, rfl⟩
  · exact .inl ⟨rfl, rfl, rfl, rfl⟩
  · exact dispatchFrame_commits (by simp) s.emptyBuffer

/-- Settles O33: the host operations of a step leave the fields, and its one beat commits at most one set. -/
theorem commitIsAtomicAndCounted : Obligations.CommitIsAtomicAndCounted := by
  intro s t h noReset
  rcases step_phases h with ⟨p, rest, hp, hr, _⟩ | ⟨u, ops, rfl | ⟨b, last, rfl⟩⟩
  · simp [noReset p rest hp] at hr
  · exact .inl (hostOps_sameFields ops)
  · exact commitsAtMostOne_of_sameFields (hostOps_sameFields ops) (pushBeat_commits b last u)

/-! ## The parameter and the outside -/

/-- No host operation writes the parameter (R11). -/
theorem hostOps_cfg {s u : State} (h : HostOps s u) : u.cfg = s.cfg := by
  induction h with
  | refl => rfl
  | setPending l _ ih => exact ih
  | presentCmd c _ ih => exact ih
  | latchRead v _ ih => exact ih
  | clearAssembler _ ih => exact ih
  | ackSticky d _ ih => exact ih
  | setIrqEn d _ ih => exact ih

theorem step_cfg {s t : State} (h : step s = .next t) : t.cfg = s.cfg := by
  rcases step_phases h with ⟨p, rest, _, _, rfl⟩ | ⟨u, ops, rfl | ⟨b, last, rfl⟩⟩
  · rfl
  · exact hostOps_cfg ops
  · obtain ⟨cfg, _⟩ := pushBeat_outside b last u
    exact cfg.trans (hostOps_cfg ops)

/-- A beat leaves the parameter and the outside alone. -/
theorem pushBeat_sameOutside (b : Byte) (last : Bool) (s : State) : SameOutside s (pushBeat b last s) := by
  obtain ⟨cfg, _, encCmd, pending, readData⟩ := pushBeat_outside b last s
  exact ⟨cfg, encCmd, pending, readData⟩

theorem basicInfo_sameOutside (f : Memory) (s : State) : SameOutside s (basicInfo f s) := by
  rcases basicInfo_cases f s with ⟨_, h⟩ | ⟨_, _, h⟩ | ⟨_, _, _, h⟩ | ⟨_, _, _, _, h⟩ | ⟨_, _, _, _, h⟩ <;>
    rw [h] <;> exact ⟨rfl, rfl, rfl, rfl⟩

theorem cellVoltage_sameOutside (f : Memory) (s : State) : SameOutside s (cellVoltage f s) := by
  rcases cellVoltage_cases f s with ⟨_, h⟩ | ⟨_, h⟩ <;> rw [h] <;> exact ⟨rfl, rfl, rfl, rfl⟩

/-- Every instruction but ENC and RD leaves the parameter and the outside alone. -/
theorem exec_sameOutside {i : Instr} {s t : State} (h : exec i s = .next t) (henc : ∀ c, i ≠ .enc c)
    (hrd : ∀ a, i ≠ .rd a) : SameOutside s t := by
  rw [exec_eq, Host.Outcome.next.injEq] at h
  subst h
  cases i with
  | push last data => exact pushBeat_sameOutside data last s
  | dispatch => exact pushBeat_sameOutside 0x77#8 true s
  | basicInfo => exact basicInfo_sameOutside s.buf s.emptyBuffer
  | cellVoltage => exact cellVoltage_sameOutside s.buf s.emptyBuffer
  | ignore key => exact ⟨rfl, rfl, rfl, rfl⟩
  | runt => exact ⟨rfl, rfl, rfl, rfl⟩
  | rd addr => exact absurd rfl (hrd addr)
  | wrCtrl lane imm =>
    simp only [ctrlWrite]
    split <;> exact ⟨rfl, rfl, rfl, rfl⟩
  | wrStatus lane imm => exact ⟨rfl, rfl, rfl, rfl⟩
  | wrIrqEn lane imm => exact ⟨rfl, rfl, rfl, rfl⟩
  | wrOther addr imm => exact ⟨rfl, rfl, rfl, rfl⟩
  | enc cmd => exact absurd rfl (henc cmd)

/-- Settles O53: of the parameter and the outside ENC writes the encoder's input, RD the value read, and
every other instruction nothing. -/
theorem outsideAndParameterAreLeftAlone : Obligations.OutsideAndParameterAreLeftAlone := by
  refine ⟨fun _ _ => step_cfg, fun i s t h => ?_⟩
  by_cases henc : ∃ c, i = .enc c
  · obtain ⟨c, rfl⟩ := henc
    cases h
    exact ⟨rfl, rfl, fun ne => absurd rfl (ne c), fun _ => rfl⟩
  by_cases hrd : ∃ a, i = .rd a
  · obtain ⟨a, rfl⟩ := hrd
    cases h
    exact ⟨rfl, rfl, fun _ => rfl, fun ne => absurd rfl (ne a)⟩
  obtain ⟨cfg, encCmd, pending, readData⟩ := exec_sameOutside h (not_exists.mp henc) (not_exists.mp hrd)
  exact ⟨cfg, pending, fun _ => encCmd, fun _ => readData⟩

/-! ## STICKY -/

theorem raiseOutcome_keeps_bit {s : State} {k : Nat} (c : ResultCode) (h : s.sticky.getLsbD k = true) :
    (s.raiseOutcome c).sticky.getLsbD k = true := by
  simp [h]

theorem raiseOverflow_keeps_bit {s : State} {k : Nat} (h : s.sticky.getLsbD k = true) :
    s.raiseOverflow.sticky.getLsbD k = true := by
  simp [h]

/-- A beat sets STICKY bits and clears none (R21). -/
theorem pushBeat_keeps_bit {s : State} {k : Nat} (b : Byte) (last : Bool) (h : s.sticky.getLsbD k = true) :
    (pushBeat b last s).sticky.getLsbD k = true := by
  rcases pushBeat_cases b last s with ⟨_, e⟩ | ⟨_, _, e⟩ | ⟨_, _, _, e⟩ | ⟨_, _, _, _, e⟩ <;> rw [e]
  · cases last <;> exact h
  · cases last <;> exact raiseOverflow_keeps_bit (s := s.emptyBuffer) h
  · exact h
  · obtain ⟨t, c, e, _, rfl | ⟨rfl, _⟩ | ⟨rfl, _⟩⟩ :=
      selectDecode_shape (s.buf ++ [0x77#8]) (s.emptyBuffer.recordFrame (s.buf ++ [0x77#8])) <;>
    rw [dispatchFrame, e] <;> exact raiseOutcome_keeps_bit c h

/-- An acknowledgement clears the bits written 1 only (R192). -/
theorem ackSticky_clears {s : State} {d : Word} {k : Nat} (h : s.sticky.getLsbD k = true)
    (hc : (s.ackSticky d).sticky.getLsbD k = false) : d.getLsbD k = true := by
  have hk : k < 6 := BitVec.lt_of_getLsbD h
  simpa [clearSticky_getLsbD _ _ _ hk, h] using hc

theorem ctrlWrite_sticky (d : Word) (s : State) : (ctrlWrite d s).sticky = s.sticky := by
  simp only [ctrlWrite]
  split <;> rfl

/-- A bus write clears a bit at STATUS only, and only a bit written 1 (R191 to R194). -/
theorem regWrite_clears {s : State} {a : Addr} {d : Word} {k : Nat} (h : s.sticky.getLsbD k = true)
    (hc : (regWrite a d s).sticky.getLsbD k = false) : Reaches a 0x0008 ∧ d.getLsbD k = true := by
  rcases regWrite_cases a d s with ⟨_, e⟩ | ⟨reg, e⟩ | ⟨_, e⟩ | ⟨_, _, _, e⟩ <;> rw [e] at hc
  · simp [ctrlWrite_sticky, h] at hc
  · exact ⟨reaches_of_regAt_status reg, ackSticky_clears h hc⟩
  · simp [h] at hc
  · simp [h] at hc

/-- The bus transaction of an edge clears a bit only as a write (R82). -/
theorem busTransaction_clears {s : State} {p : Pins} {k : Nat} (h : s.sticky.getLsbD k = true)
    (hc : (busTransaction p s).sticky.getLsbD k = false) :
    p.regReq = true ∧ p.regWe = true ∧ Reaches p.regAddr 0x0008 ∧ p.regWdata.getLsbD k = true := by
  simp only [busTransaction] at hc
  split_ifs at hc with req we
  · exact ⟨req, we, regWrite_clears h hc⟩
  · simp [h] at hc
  · simp [h] at hc

/-- An edge clears a bit by reset or by its bus transaction: the beat after it clears none (R74). -/
theorem clockEdge_clears {s : State} {p : Pins} {k : Nat} (h : s.sticky.getLsbD k = true)
    (hc : (clockEdge p s).sticky.getLsbD k = false) :
    p.rst = true ∨
      p.regReq = true ∧ p.regWe = true ∧ Reaches p.regAddr 0x0008 ∧ p.regWdata.getLsbD k = true := by
  by_cases hr : p.rst = true
  · exact .inl hr
  refine .inr (busTransaction_clears (s := s.presentCmd p.encCmd) h ?_)
  rw [clockEdge, if_neg hr] at hc
  rcases beatTransaction_cases p (busTransaction p (s.presentCmd p.encCmd)) with e | e <;> rw [e] at hc
  · exact hc
  · exact Bool.eq_false_iff.mpr fun set => by simp [pushBeat_keeps_bit _ _ set] at hc

/-- A word clears a bit only as a WR to STATUS with the bit 1 (R21, R99). -/
theorem exec_word_clears {w : Word} {i : Instr} {s t : State} {k : Nat} (hd : decodeHtw w = .ok i)
    (he : exec i s = .next t) (h : s.sticky.getLsbD k = true) (hc : t.sticky.getLsbD k = false) :
    ∃ lane imm, i = .wrStatus lane imm ∧ imm.getLsbD k = true := by
  obtain ⟨noBasic, noCell, noIgnore, noRunt⟩ := decodeHtw_not_frameKind hd
  rw [exec_eq, Host.Outcome.next.injEq] at he
  subst he
  cases i with
  | push last data => simp [pushBeat_keeps_bit _ _ h] at hc
  | dispatch => simp [pushBeat_keeps_bit _ _ h] at hc
  | basicInfo => exact absurd rfl noBasic
  | cellVoltage => exact absurd rfl noCell
  | ignore key => exact absurd rfl (noIgnore key)
  | runt => exact absurd rfl noRunt
  | wrCtrl lane imm => simp [ctrlWrite_sticky, h] at hc
  | wrStatus lane imm =>
    have set := ackSticky_clears h hc
    simp only [immWord, BitVec.getLsbD_setWidth, Bool.and_eq_true] at set
    exact ⟨lane, imm, rfl, set.2⟩
  | rd addr => simp [h] at hc
  | wrIrqEn lane imm => simp [h] at hc
  | wrOther addr imm => simp [h] at hc
  | enc cmd => simp [h] at hc

/-- Settles O48, by what the step takes: nothing clears no bit, an edge and a word as said above. -/
theorem stickyIsClearedOnlyByAcknowledgeOrReset :
    Obligations.StickyIsClearedOnlyByAcknowledgeOrReset := by
  intro s t k h hs hc
  rcases step_cases h with ⟨_, rfl⟩ | ⟨p, rest, hp, rfl⟩ | ⟨w, rest, i, hp, hd, he⟩
  · simp [hs] at hc
  · exact .inl ⟨p, rest, hp, clockEdge_clears (s := s.setPending rest) hs hc⟩
  · obtain ⟨lane, imm, rfl, set⟩ := exec_word_clears hd he (s := s.setPending rest) hs hc
    exact .inr ⟨w, rest, lane, imm, hp, hd, set⟩

end Sys2Proof.Machine
end

section
/-! PROOFS. What a register read answers, as numbers, over the whole map of R27. -/

namespace Sys2Proof.Machine

/-! ## Which register an access reads -/

/-- RD answers the view and leaves it on `reg_rdata` (R190, R82). -/
theorem exec_rd (a : Addr) (s : State) : exec (.rd a) s = .next { s with readData := regRead a s } := rfl

/-- Inside the table an address reads the table's register (R27). -/
theorem regRead_table {a : Addr} {w : Nat} {r : Reg} (h : Reaches a w)
    (hr : regTable.lookup (BitVec.ofNat 16 w) = some r) (s : State) : regRead a s = view s r := by
  rw [regRead, regAt_of_reaches h, hr]

/-- The two windows in numbers: 255 entries from 0x0400, and CELL_MAX entries from 0x8000 (R51, R52). -/
theorem arrayReg_eq (cfg : Config) (a : Nat) :
    arrayReg cfg a =
      if 0x0400 ≤ a ∧ a < 0x07FC then .ntcTemp ((a - 0x0400) / 4)
      else if 0x8000 ≤ a ∧ a < 0x8000 + 4 * cfg.cellMax then .cellMv ((a - 0x8000) / 4)
      else .unmapped := rfl

/-- The NTC window (R51). -/
theorem regRead_ntcTemp {a : Addr} {i : Nat} (hi : i ≤ 254) (h : Reaches a (0x0400 + 4 * i)) (s : State) :
    regRead a s = view s (.ntcTemp i) := by
  rw [regRead, regAt_array h (by omega), arrayReg_eq, if_pos (by omega)]
  congr 2
  omega

/-- The cell window (R52). -/
theorem regRead_cellMv {a : Addr} {j : Nat} (h : Reaches a (0x8000 + 4 * j)) {s : State}
    (hj : j < s.cfg.cellMax) : regRead a s = view s (.cellMv j) := by
  rw [regRead, regAt_array h (by omega), arrayReg_eq, if_neg (by omega), if_pos (by omega)]
  congr 2
  omega

/-- The word addresses the map does not name (R53): the gap in the table, the space after it, the space
between the windows and the space beyond the cell window. -/
def Unnamed (cfg : Config) (w : Nat) : Prop :=
  w = 0x001C ∨ (0x0060 ≤ w ∧ w ≤ 0x03FC) ∨ (0x07FC ≤ w ∧ w ≤ 0x7FFC) ∨ 0x8000 + 4 * cfg.cellMax ≤ w

theorem regAt_unnamed {a : Addr} {w : Nat} {cfg : Config} (h : Reaches a w) (hw : Unnamed cfg w) :
    regAt cfg a = .unmapped := by
  rw [Unnamed] at hw
  rw [regAt_array h (by omega), arrayReg_eq, if_neg (by omega), if_neg (by omega)]

theorem regRead_unnamed {a : Addr} {w : Nat} {s : State} (h : Reaches a w) (hw : Unnamed s.cfg w) :
    regRead a s = 0#32 := by
  rw [regRead, regAt_unnamed h hw, view]

/-- A bus write to such an address has no effect (R53, R194). -/
theorem regWrite_unnamed {a : Addr} {w : Nat} {s : State} (h : Reaches a w) (hw : Unnamed s.cfg w)
    (d : Word) : regWrite a d s = s := by
  rw [regWrite, regAt_unnamed h hw]

/-! ## The views as numbers -/

theorem view_param_toNat {s : State} (h : s.cfg.Wf) :
    (view s .param).toNat = s.cfg.cellMax * 65536 + s.cfg.bufMax := by
  obtain ⟨_, hi⟩ := h
  have max : s.cfg.cellMax = (s.cfg.bufMax - 7) / 2 := rfl
  simp only [view, toNat_append_eq, BitVec.toNat_ofNat]
  omega

theorem view_status_toNat {s : State} (h : s.buf.length < 65536) :
    (view s .status).toNat = s.buf.length * 65536 + (if s.mode = .discard then 4096 else 0) +
      s.cells.valid.toNat * 512 + s.basic.valid.toNat * 256 + s.sticky.toNat := by
  have modeBit : (if s.mode = .discard then 4096 else 0) = (decide (s.mode = .discard)).toNat * 4096 := by
    split <;> simp [*]
  simp only [view, toNat_append_eq, BitVec.toNat_ofNat, BitVec.toNat_ofBool, Nat.mod_eq_of_lt h, modeBit]
  omega

theorem view_lastFrame_toNat (s : State) :
    (view s .lastFrame).toNat = s.last.len.toNat * 65536 + s.last.key.toNat * 256 +
      s.last.keyValid.toNat * 128 + (resultNumber s.last.result).toNat := by
  simp only [view, toNat_append_eq, BitVec.toNat_ofNat, BitVec.toNat_ofBool]
  omega

theorem view_lastStat_toNat (s : State) :
    (view s .lastStat).toNat = s.stat.valid.toNat * 256 + s.stat.byte.toNat := by
  simp only [view, toNat_append_eq, BitVec.toNat_ofNat, BitVec.toNat_ofBool]
  omega

theorem view_gen_toNat (s : State) : (view s .gen).toNat = s.cellGen.toNat * 65536 + s.basicGen.toNat :=
  toNat_append_eq _ _

/-- The packed date as a number, from its two bytes (R40, R92). -/
theorem mfgDate_toNat (raw : Half) :
    (mfgDate raw).toNat = (2000 + raw.toNat / 256 / 2) * 65536 +
      (raw.toNat / 256 % 2 * 8 + raw.toNat % 256 / 32) * 256 + raw.toNat % 256 % 32 := by
  have := raw.isLt
  simp only [mfgDate, mfgYear, mfgMonth, mfgDay, toNat_append_eq, toNat_extract, BitVec.toNat_add,
    BitVec.toNat_setWidth, BitVec.toNat_ofNat]
  omega

/-- The presented temperature as a signed number (R51, R93). -/
theorem ntcTemp_toInt (raw : Half) : (ntcTemp raw).toInt = (raw.toNat : Int) - 2731 := by
  have := raw.isLt
  rw [BitVec.toInt_eq_toNat_cond]
  simp only [ntcTemp, BitVec.toNat_sub, BitVec.toNat_setWidth, BitVec.toNat_ofNat]
  split <;> omega

/-- CELL_N fits its register, since a committed frame fits the buffer (R19, R157). -/
theorem cellN_lt {s : State} (hs : Inv s) : s.cells.cellN < 65536 := by
  have hi := hs.config.2
  rcases hs.cells with ⟨_, e⟩ | ⟨_, f, _, hl, e⟩ <;> rw [e]
  · decide
  · simp only [cellsOf, cellCount]
    omega

/-! ## The obligations -/

/-- Settles O34: each register's layout is the sum of its fields at their bit positions. -/
theorem readBookkeepingRegisters : Obligations.ReadBookkeepingRegisters := by
  intro s a hs
  have len : s.buf.length < 65536 := by
    have := of_decide_eq_true hs.buffer
    have := hs.config.2
    omega
  refine ⟨_, exec_rd a s, fun h => ?_, fun h => ?_, fun h => ?_, fun h => ?_, fun h => ?_, fun h => ?_,
    fun h => ?_⟩ <;> rw [regRead_table h rfl]
  · exact view_param_toNat hs.config
  · rfl
  · exact view_status_toNat len
  · exact BitVec.toNat_setWidth_of_le (by decide)
  · exact view_lastFrame_toNat s
  · exact view_lastStat_toNat s
  · exact view_gen_toNat s

/-- Settles O35: CURRENT is sign-extended, CELL_N fits its register, and every other field is zero-extended. -/
theorem readFieldRegisters : Obligations.ReadFieldRegisters := by
  intro s a hs
  refine ⟨_, exec_rd a s, fun h => ?_, fun h => ?_, fun h => ?_, fun h => ?_, fun h => ?_, fun h => ?_,
    fun h => ?_, fun h => ?_, fun h => ?_, fun h => ?_, fun h => ?_, fun h => ?_, fun h => ?_, fun h => ?_,
    fun h => ?_⟩ <;> rw [regRead_table h rfl]
  case refine_2 => exact BitVec.toInt_signExtend_of_le (by decide)
  case refine_15 =>
    have := cellN_lt hs
    exact (BitVec.toNat_ofNat _ _).trans (Nat.mod_eq_of_lt (by omega))
  all_goals exact BitVec.toNat_setWidth_of_le (by decide)

/-- Settles O36: MFG_DATE is the unpacked date while the set is valid, and 0 while it is not. -/
theorem readManufactureDate : Obligations.ReadManufactureDate := by
  refine ⟨fun s a b0 b1 h hb0 hb1 => ⟨_, exec_rd a s, ?_⟩, rfl⟩
  rw [regRead_table h rfl, view, hb0, hb1]
  constructor
  · intro invalid
    simp [invalid]
  · intro valid
    rw [if_pos valid]
    exact mfgDate_toNat s.basic.mfgRaw

/-- Settles O37: NTC_TEMP[i] is the i-th temperature below NTC_N, which is 0 after reset. -/
theorem readTemperature : Obligations.ReadTemperature := by
  intro a i hi h
  refine ⟨fun s => ⟨_, exec_rd a s, ?_⟩, ?_⟩
  · rw [regRead_ntcTemp hi h, view]
    constructor
    · intro below
      rw [if_pos below]
      exact ntcTemp_toInt _
    · exact fun beyond => if_neg beyond
  · rw [exec_rd, regRead_ntcTemp hi h]
    rfl

/-- Settles O38: CELL_MV[j] is the j-th cell voltage below CELL_N, which is 0 after reset; past the window of
the default parameter the address is unmapped. -/
theorem readCellVoltage : Obligations.ReadCellVoltage := by
  intro a j h
  refine ⟨fun s _ hj => ⟨_, exec_rd a s, ?_⟩, ?_⟩
  · rw [regRead_cellMv h hj, view]
    constructor
    · intro below
      rw [if_pos below]
      exact BitVec.toNat_setWidth_of_le (by decide)
    · exact fun beyond => if_neg beyond
  · rw [exec_rd]
    by_cases hj : j < State.reset.cfg.cellMax
    · rw [regRead_cellMv h hj]
      rfl
    · rw [regRead_unnamed h (.inr (.inr (.inr (by omega))))]

/-- Settles O39: at an address the map does not name the view is 0 and the bus write is no operation. -/
theorem unmappedAddressesReadZeroAndIgnoreWrites :
    Obligations.UnmappedAddressesReadZeroAndIgnoreWrites := by
  intro s a w h hw
  refine ⟨by rw [exec_rd, regRead_unnamed h hw], fun _ => rfl, fun d rest => ?_⟩
  exact congrArg Host.Outcome.next (regWrite_unnamed (s := { s with pending := rest }) h hw d)

end Sys2Proof.Machine
end

section
/-! PROOFS. Steps and ports: a word's instruction, the order of the transactions on one edge, and repeated
accesses. -/

namespace Sys2Proof.Machine

/-! ## A word -/

/-- A word that decodes runs its instruction (R73). -/
theorem step_word {s : State} {w : Word} {rest : List Stimulus} {i : Instr}
    (hp : s.pending = .htw w :: rest) (hd : decodeHtw w = .ok i) :
    step s = exec i (s.setPending rest) := by
  simp only [step, hp, hd]

/-- Settles O6: it is what a step does with a word. -/
theorem stepRunsTheDecodedWord : Obligations.StepRunsTheDecodedWord :=
  fun _ _ _ _ hp hd => step_word hp hd

/-! ## The transactions of an edge -/

/-- Without reset an edge is the bus transaction and then the beat (R74). -/
theorem clockEdge_run {p : Pins} (hr : p.rst = false) (s : State) :
    clockEdge p s = beatTransaction p (busTransaction p (s.presentCmd p.encCmd)) := by
  simp [clockEdge, hr]

/-- Without a bus request the bus does nothing (R82). -/
theorem busTransaction_idle {p : Pins} (h : p.regReq = false) (s : State) : busTransaction p s = s := by
  simp [busTransaction, h]

/-- A write request is a register write (R82). -/
theorem busTransaction_write {p : Pins} (hq : p.regReq = true) (hw : p.regWe = true) (s : State) :
    busTransaction p s = regWrite p.regAddr p.regWdata s := by
  simp [busTransaction, hq, hw]

/-- Without `rx_valid` no beat is accepted (R80). -/
theorem beatTransaction_idle {p : Pins} (h : p.rxValid = false) (s : State) : beatTransaction p s = s := by
  simp [beatTransaction, h]

/-- With `rx_valid` outside reset the beat is pushed (R80). -/
theorem beatTransaction_push {p : Pins} (hr : p.rst = false) (hv : p.rxValid = true) (s : State) :
    beatTransaction p s = pushBeat p.rxData p.rxLast s := by
  simp [beatTransaction, rxReady, hr, hv]

/-- A register write does not depend on the stimuli still to come. -/
theorem regWrite_setPending (a : Addr) (d : Word) (s : State) (l : List Stimulus) :
    regWrite a d (s.setPending l) = (regWrite a d s).setPending l := by
  simp only [regWrite, setPending_cfg, ctrlWrite]
  split
  · split <;> rfl
  all_goals rfl

/-- Nor does the bus transaction of an edge. -/
theorem busTransaction_setPending (p : Pins) (s : State) (l : List Stimulus) :
    busTransaction p (s.setPending l) = (busTransaction p s).setPending l := by
  simp only [busTransaction, regWrite_setPending, regRead, view_setPending, setPending_cfg]
  split_ifs <;> rfl

@[simp] theorem regWrite_encCmd (a : Addr) (d : Word) (s : State) :
    (regWrite a d s).encCmd = s.encCmd := by
  rcases regWrite_cases a d s with ⟨_, e⟩ | ⟨_, e⟩ | ⟨_, e⟩ | ⟨_, _, _, e⟩ <;> rw [e]
  · simp only [ctrlWrite]
    split <;> rfl
  · rfl
  · rfl

/-- The bus has no part in the encoder's input (R123). -/
@[simp] theorem busTransaction_encCmd (p : Pins) (s : State) : (busTransaction p s).encCmd = s.encCmd := by
  simp only [busTransaction]
  split_ifs <;> simp

/-- Presenting the level that already stands changes nothing. -/
theorem presentCmd_self {s : State} {c : Byte} (h : s.encCmd = c) : s.presentCmd c = s := by
  subst h
  rfl

/-- An edge with the bus transaction alone. -/
theorem clockEdge_busOnly {p : Pins} (hr : p.rst = false) (s : State) :
    clockEdge { p with rxValid := false } s = busTransaction p (s.presentCmd p.encCmd) :=
  (clockEdge_run (p := { p with rxValid := false }) hr s).trans (beatTransaction_idle rfl _)

/-- An edge with the beat alone. -/
theorem clockEdge_beatOnly {p : Pins} (hr : p.rst = false) (s : State) :
    clockEdge { p with regReq := false } s = beatTransaction p (s.presentCmd p.encCmd) := by
  rw [clockEdge_run (p := { p with regReq := false }) hr, busTransaction_idle rfl]
  rfl

/-- The one edge is the edge with the bus alone and then the edge with the beat alone: the second presents the
encoder's level that already stands (R74). -/
theorem clockEdge_bus_then_beat {p : Pins} (hr : p.rst = false) (s : State) :
    clockEdge { p with regReq := false } (clockEdge { p with rxValid := false } s) = clockEdge p s := by
  rw [clockEdge_beatOnly hr, clockEdge_busOnly hr, clockEdge_run hr, presentCmd_self (by simp)]

/-! ## An edge as a step -/

/-- A beat, if there is one, does not depend on the stimuli still to come. -/
theorem beatTransaction_setPending (p : Pins) (s : State) (l : List Stimulus) :
    beatTransaction p (s.setPending l) = (beatTransaction p s).setPending l := by
  simp only [beatTransaction, pushBeat_setPending]
  split <;> rfl

/-- No transaction of an edge depends on the stimuli still to come (R73). -/
theorem clockEdge_setPending (p : Pins) (s : State) (l : List Stimulus) :
    clockEdge p (s.setPending l) = (clockEdge p s).setPending l := by
  have bus : busTransaction p ((s.setPending l).presentCmd p.encCmd) =
      (busTransaction p (s.presentCmd p.encCmd)).setPending l :=
    busTransaction_setPending p (s.presentCmd p.encCmd) l
  simp only [clockEdge, bus, beatTransaction_setPending]
  split <;> rfl

/-- A step takes the edge and runs it (R73, R74). -/
theorem step_edge {s : State} {p : Pins} {rest : List Stimulus} (hp : s.pending = .edge p :: rest) :
    step s = .next ((clockEdge p s).setPending rest) := by
  simp only [step, hp, clockEdge_setPending]

/-- The same of an edge presented to a state. -/
theorem step_setPending_edge (p : Pins) (s : State) (rest : List Stimulus) :
    step (s.setPending (.edge p :: rest)) = .next ((clockEdge p s).setPending rest) := by
  rw [step_edge rfl, clockEdge_setPending]
  rfl

/-- Settles O9: the two edges, run one after the other, leave the state of the one. -/
theorem sameEdgeBusThenBeat : Obligations.SameEdgeBusThenBeat := by
  intro s p rest hr hp
  show step s = runSteps 2 (s.setPending
    (.edge { p with rxValid := false } :: .edge { p with regReq := false } :: rest))
  simp only [step_edge hp, runSteps, step_setPending_edge, clockEdge_bus_then_beat hr]

/-! ## An acknowledgement or a clear on the edge of a beat -/

/-- Inside the table an address reaches the table's register (R27). -/
theorem regAt_table {a : Addr} {w : Nat} {r : Reg} (h : Reaches a w)
    (hr : regTable.lookup (BitVec.ofNat 16 w) = some r) (cfg : Config) : regAt cfg a = r := by
  rw [regAt_of_reaches h, hr]

/-- WR(CTRL, d) (R191). -/
theorem regWrite_ctrl {a : Addr} (h : Reaches a 0x0004) (d : Word) (s : State) :
    regWrite a d s = ctrlWrite d s := by
  rw [regWrite, regAt_table h rfl]

/-- WR(STATUS, d) (R192). -/
theorem regWrite_status {a : Addr} (h : Reaches a 0x0008) (d : Word) (s : State) :
    regWrite a d s = s.ackSticky d := by
  rw [regWrite, regAt_table h rfl]

/-- An edge that carries a register write and a beat (R74). -/
theorem clockEdge_writeAndBeat {p : Pins} (hr : p.rst = false) (hq : p.regReq = true)
    (hw : p.regWe = true) (hv : p.rxValid = true) (s : State) :
    clockEdge p s =
      pushBeat p.rxData p.rxLast (regWrite p.regAddr p.regWdata (s.presentCmd p.encCmd)) := by
  rw [clockEdge_run hr, beatTransaction_push hr hv, busTransaction_write hq hw]

/-- The STICKY bits a beat sets: the overflow's at a full buffer, and the outcome's when a frame completes
(R133, R211). They do not depend on STICKY. -/
def beatEvents (b : Byte) (last : Bool) (s : State) : BitVec 6 :=
  if s.mode = .discard then 0#6
  else if s.buf.length = s.cfg.bufMax then overflowBit
  else if last = true ∧ b = 0x77#8 then outcomeBit (resultOf (s.buf ++ [0x77#8]))
  else 0#6

/-- A dispatch sets the bit of its outcome (R151). -/
theorem dispatchFrame_sticky {f : Memory} (hf : f ≠ []) (s : State) :
    (dispatchFrame f s).sticky = setSticky s.sticky (outcomeBit (resultOf f)) := by
  obtain ⟨t, e, ⟨_, _, _, rfl⟩ | ⟨_, _, rfl⟩ | ⟨_, _, rfl⟩⟩ :=
    selectDecode_result hf (s.recordFrame f) <;>
  simp [dispatchFrame, e]

/-- A beat sets its events and leaves the other bits (R21). -/
theorem pushBeat_sticky (b : Byte) (last : Bool) (s : State) :
    (pushBeat b last s).sticky = setSticky s.sticky (beatEvents b last s) := by
  rcases pushBeat_cases b last s with ⟨hm, h⟩ | ⟨hm, hl, h⟩ | ⟨hm, hl, ht, h⟩ | ⟨hm, hl, rfl, rfl, h⟩ <;>
    rw [h]
  · cases last <;> simp [dropBeat, beatEvents, hm, setSticky]
  · cases last <;> simp [overflowBeat, beatEvents, hm, hl]
  · simp [beatEvents, hm, hl, ht, setSticky]
  · simp [beatEvents, hm, hl, dispatchFrame_sticky]

/-- Settles O10: the beat's events do not depend on STICKY, and it sets them after the acknowledgement. -/
theorem sameEdgeEventOutlivesAcknowledge : Obligations.SameEdgeEventOutlivesAcknowledge := by
  intro s t u p rest k hr hq hw ha hv hp ht hu set
  have both : t.sticky = setSticky (clearSticky s.sticky p.regWdata)
      (beatEvents p.rxData p.rxLast s) := by
    rw [step_edge hp, clockEdge_writeAndBeat hr hq hw hv, regWrite_status ha] at ht
    cases ht
    exact pushBeat_sticky ..
  have alone : u.sticky = setSticky 0#6 (beatEvents p.rxData p.rxLast s) := by
    rw [step_edge rfl, clockEdge_beatOnly hr, beatTransaction_push hr hv] at hu
    cases hu
    exact pushBeat_sticky ..
  have event : (beatEvents p.rxData p.rxLast s).getLsbD k = true := by simpa [alone] using set
  simp [both, event]

/-- A beat that does not terminate is the whole buffer when it comes after a clear (R130, R135). -/
theorem pushBeat_clearAssembler {s : State} (hcfg : s.cfg.Wf) {b : Byte} {last : Bool}
    (ht : ¬(last = true ∧ b = 0x77#8)) :
    pushBeat b last s.clearAssembler = { s with buf := [b], mode := .accum } := by
  have room : s.clearAssembler.buf.length ≠ s.clearAssembler.cfg.bufMax := by
    have := hcfg.1
    simp only [clearAssembler_buf, clearAssembler_cfg, List.length_nil]
    omega
  exact pushBeat_store rfl room ht

/-- Settles O11: the write clears the assembler, and the beat comes after it. -/
theorem sameEdgeClearThenStore : Obligations.SameEdgeClearThenStore := by
  intro s p rest hcfg hr hq hw ha hd hv ht hp
  have clears : regWrite p.regAddr p.regWdata (s.presentCmd p.encCmd) =
      (s.presentCmd p.encCmd).clearAssembler :=
    (regWrite_ctrl ha _ _).trans (if_pos hd)
  rw [step_edge hp, clockEdge_writeAndBeat hr hq hw hv, clears,
    pushBeat_clearAssembler (s := s.presentCmd p.encCmd) hcfg ht]
  rfl

/-! ## Repeated accesses -/

/-- Clearing an empty assembler in ACCUM changes nothing (R69, R135). -/
theorem ctrlWrite_idem (d : Word) (s : State) : ctrlWrite d (ctrlWrite d s) = ctrlWrite d s := by
  simp only [ctrlWrite]
  split <;> rfl

/-- A bit once acknowledged is clear (R69, R192). -/
theorem ackSticky_idem (d : Word) (s : State) : (s.ackSticky d).ackSticky d = s.ackSticky d := by
  simp [State.ackSticky, clearSticky, BitVec.and_assoc]

/-- A register access or ENC run a second time changes nothing more (R69). -/
theorem exec_host_idem {i : Instr} {s t : State} (hi : hostOperation i = true) (h : exec i s = .next t) :
    exec i t = .next t := by
  rw [exec_eq, Host.Outcome.next.injEq] at h
  subst h
  rw [exec_eq]
  cases i with
  | push | dispatch | basicInfo | cellVoltage | ignore | runt => cases hi
  | rd addr =>
    dsimp only
    rw [regRead_latchRead]
    rfl
  | wrCtrl lane imm => exact congrArg _ (ctrlWrite_idem _ s)
  | wrStatus lane imm => exact congrArg _ (ackSticky_idem _ s)
  | wrIrqEn lane imm => rfl
  | wrOther addr imm => rfl
  | enc cmd => rfl

/-- A beat that is not the last of its chunk is stored where there is room (R130). -/
theorem exec_push_store {s : State} (hm : s.mode = .accum) (hl : s.buf.length ≠ s.cfg.bufMax) (b : Byte) :
    exec (.push false b) s = .next (s.storeByte b) :=
  congrArg _ (pushBeat_store hm hl (by simp))

/-- Settles O45: accesses by instruction, and two bytes with room for both. -/
theorem accessesAreIdempotentBeatsAreNot : Obligations.AccessesAreIdempotentBeatsAreNot := by
  refine ⟨fun i s t => exec_host_idem, fun s b hm hroom => ?_⟩
  have first : exec (.push false b) s = .next (s.storeByte b) := exec_push_store hm (by omega) b
  have second : exec (.push false b) (s.storeByte b) = .next ((s.storeByte b).storeByte b) :=
    exec_push_store (s := s.storeByte b) hm (by simp; omega) b
  simp only [execAll, first, second]
  simp [State.storeByte]

end Sys2Proof.Machine
end

section
/-! PROOFS. The generation counters along a run: a counter that reads the same at both ends has counted no
commit in between. -/

namespace Sys2Proof.Machine

/-- A run of `n + 1` steps is a step and a run of `n`. -/
theorem runSteps_succ_next {n : Nat} {s t : State} :
    runSteps (n + 1) s = .next t ↔ ∃ u, step s = .next u ∧ runSteps n u = .next t := by
  rw [runSteps]
  cases step s <;> simp

/-- A step takes the next stimulus and leaves the others (R73). -/
theorem step_pending {s t : State} (h : step s = .next t) : t.pending = s.pending.tail := by
  rcases step_cases h with ⟨hp, rfl⟩ | ⟨p, rest, hp, rfl⟩ | ⟨w, rest, i, hp, _, he⟩
  · simp [hp]
  · rw [hp, clockEdge_setPending]
    rfl
  · obtain ⟨_, pending, _⟩ := outsideAndParameterAreLeftAlone.2 i _ _ he
    rw [hp, pending]
    rfl

/-- None of the next `n` stimuli asserts reset. -/
def NoResetFor (n : Nat) (s : State) : Prop := ∀ x ∈ s.pending.take n, Stimulus.isReset x = false

theorem NoResetFor.next {n : Nat} {s : State} (h : NoResetFor (n + 1) s) (p : Pins) (rest : List Stimulus)
    (hp : s.pending = .edge p :: rest) : p.rst = false :=
  h (.edge p) (by simp [hp])

theorem NoResetFor.after_step {n : Nat} {s t : State} (h : NoResetFor (n + 1) s) (hs : step s = .next t) :
    NoResetFor n t := by
  intro x hx
  refine h x ?_
  rw [step_pending hs] at hx
  cases hp : s.pending with
  | nil => simp [hp] at hx
  | cons y ys => exact List.mem_cons_of_mem y (by simpa [hp] using hx)

/-- `gen` counts the changes of `fields`: a step without reset leaves both or adds 1 to `gen` (R25). -/
def CountsChanges {α : Type} (gen : State → Half) (fields : State → α) : Prop :=
  ∀ s t : State, step s = .next t → (∀ p rest, s.pending = .edge p :: rest → p.rst = false) →
    (gen t = gen s ∧ fields t = fields s) ∨ gen t = gen s + 1#16

/-- BASIC_GEN counts the basic set's commits (R152). -/
theorem basicGen_countsChanges : CountsChanges State.basicGen State.basic := by
  intro s t h noReset
  rcases commitIsAtomicAndCounted s t h noReset with
    ⟨basic, _, gen, _⟩ | ⟨gen, _⟩ | ⟨_, _, _, basic, gen, _⟩
  · exact .inl ⟨gen, basic⟩
  · exact .inr gen
  · exact .inl ⟨gen, basic⟩

/-- CELL_GEN counts the cell set's commits (R156). -/
theorem cellGen_countsChanges : CountsChanges State.cellGen State.cells := by
  intro s t h noReset
  rcases commitIsAtomicAndCounted s t h noReset with
    ⟨_, cells, _, gen⟩ | ⟨_, _, _, cells, gen, _⟩ | ⟨gen, _⟩
  · exact .inl ⟨gen, cells⟩
  · exact .inl ⟨gen, cells⟩
  · exact .inr gen

/-- Every state from `s` up to `n` steps later has the fields of `s`. -/
def FieldsStand {α : Type} (fields : State → α) (n : Nat) (s : State) : Prop :=
  ∀ k ≤ n, ∃ u, runSteps k s = .next u ∧ fields u = fields s

/-- A step that leaves the fields extends a run over which they stand. -/
theorem FieldsStand.cons {α : Type} {fields : State → α} {n : Nat} {s u : State} (hs : step s = .next u)
    (he : fields u = fields s) (h : FieldsStand fields n u) : FieldsStand fields (n + 1) s := by
  intro k hk
  cases k with
  | zero => exact ⟨s, rfl, rfl⟩
  | succ k =>
    obtain ⟨v, run, same⟩ := h k (by omega)
    exact ⟨v, runSteps_succ_next.mpr ⟨u, hs, run⟩, same.trans he⟩

/-- Over `n` steps without reset the counter gains some `d ≤ n`, and where it gains 0 the fields stand. -/
theorem runSteps_counts {α : Type} {gen : State → Half} {fields : State → α}
    (counts : CountsChanges gen fields) {n : Nat} {s t : State} (noReset : NoResetFor n s)
    (run : runSteps n s = .next t) :
    ∃ d ≤ n, gen t = gen s + BitVec.ofNat 16 d ∧ (d = 0 → FieldsStand fields n s) := by
  induction n generalizing s with
  | zero =>
    cases run
    refine ⟨0, le_rfl, by simp, fun _ k hk => ?_⟩
    obtain rfl := Nat.le_zero.mp hk
    exact ⟨_, rfl, rfl⟩
  | succ n ih =>
    obtain ⟨u, hs, run'⟩ := runSteps_succ_next.mp run
    obtain ⟨d, hd, gained, stand⟩ := ih (noReset.after_step hs) run'
    rcases counts s u hs noReset.next with ⟨gen, same⟩ | counted
    · exact ⟨d, by omega, gen ▸ gained, fun h => (stand h).cons hs same⟩
    · refine ⟨d + 1, by omega, ?_, fun h => absurd h d.succ_ne_zero⟩
      rw [gained, counted, BitVec.ofNat_add, BitVec.add_assoc, BitVec.add_comm (1#16)]

/-- A 16-bit counter that reads the same at both ends of fewer than 2^16 steps gained 0 (R76). -/
theorem fieldsStand_of_gen_eq {α : Type} {gen : State → Half} {fields : State → α}
    (counts : CountsChanges gen fields) {n : Nat} {s t : State} (hn : n < 65536)
    (noReset : NoResetFor n s) (run : runSteps n s = .next t) (heq : gen s = gen t) :
    FieldsStand fields n s := by
  obtain ⟨d, hd, gained, stand⟩ := runSteps_counts counts noReset run
  refine stand ?_
  have := congrArg BitVec.toNat (heq.trans gained)
  have := (gen s).isLt
  simp only [BitVec.toNat_add, BitVec.toNat_ofNat] at *
  omega

/-- Settles O52: each counter counts its own set's commits. -/
theorem equalGenerationsMeanOneCommit : Obligations.EqualGenerationsMeanOneCommit :=
  fun _ _ _ hn noReset run =>
    ⟨fieldsStand_of_gen_eq basicGen_countsChanges hn noReset run,
      fieldsStand_of_gen_eq cellGen_countsChanges hn noReset run⟩

end Sys2Proof.Machine
end

section
/-! PROOFS. The encoding: the words of R97 to R100 as numbers, the decoder and the encoder on each of them, and
the words neither speaks of (R101). -/

namespace Sys2Proof

/-! ## The word formats -/

/-- The word of a beat (R97). -/
def pushWord (last : Bool) (data : Byte) : Word := 0x1#4 ++ 0#19 ++ BitVec.ofBool last ++ data

/-- The word of a register read (R98). -/
def readWord (addr : Addr) : Word := 0x2#4 ++ addr ++ 0#12

/-- The word of a register write (R99). -/
def writeWord (addr : Addr) (imm : Imm12) : Word := 0x3#4 ++ addr ++ imm

/-- The word of a command code on the encoder port (R100). -/
def encWord (cmd : Byte) : Word := 0x4#4 ++ 0#20 ++ cmd

theorem pushWord_toNat (last : Bool) (data : Byte) :
    (pushWord last data).toNat = 2 ^ 28 + last.toNat * 2 ^ 8 + data.toNat := by
  simp only [pushWord, toNat_append_eq, BitVec.toNat_ofBool, BitVec.toNat_ofNat]
  omega

theorem readWord_toNat (addr : Addr) : (readWord addr).toNat = 2 * 2 ^ 28 + addr.toNat * 2 ^ 12 := by
  simp only [readWord, toNat_append_eq, BitVec.toNat_ofNat]
  omega

theorem writeWord_toNat (addr : Addr) (imm : Imm12) :
    (writeWord addr imm).toNat = 3 * 2 ^ 28 + addr.toNat * 2 ^ 12 + imm.toNat := by
  simp only [writeWord, toNat_append_eq, BitVec.toNat_ofNat]
  omega

theorem encWord_toNat (cmd : Byte) : (encWord cmd).toNat = 4 * 2 ^ 28 + cmd.toNat := by
  simp only [encWord, toNat_append_eq, BitVec.toNat_ofNat]
  omega

/-! ## The decoder on each format -/

/-- A field of a word has the value the word's number has at the field's place. -/
theorem field_eq {w : Word} {k n : Nat} {x : BitVec n} (h : w.toNat / 2 ^ k % 2 ^ n = x.toNat) :
    w.extractLsb' k n = x :=
  BitVec.eq_of_toNat_eq ((toNat_extract w k n).trans h)

/-- The same of a field with a value written as a number. -/
theorem field_eq_ofNat {w : Word} {k n m : Nat} (h : w.toNat / 2 ^ k % 2 ^ n = m) :
    w.extractLsb' k n = BitVec.ofNat n m :=
  field_eq (by rw [BitVec.toNat_ofNat, ← h, Nat.mod_mod])

/-- A bit of a word as a number. -/
theorem toNat_getLsbD (w : Word) (k : Nat) : (w.getLsbD k).toNat = w.toNat / 2 ^ k % 2 := by
  rw [← BitVec.testBit_toNat, Nat.toNat_testBit]

/-- A bit of a word has the value the word's number has at the bit's place. -/
theorem bit_eq {w : Word} {k : Nat} {b : Bool} (h : w.toNat / 2 ^ k % 2 = b.toNat) : w.getLsbD k = b := by
  rw [← toNat_getLsbD] at h
  cases b with
  | false => exact Bool.toNat_eq_zero.mp h
  | true => exact Bool.toNat_eq_one.mp h

theorem decodeHtw_pushWord (last : Bool) (data : Byte) :
    decodeHtw (pushWord last data) = .ok (beatInstr last data) := by
  have number := pushWord_toNat last data
  have := last.toNat_le
  have op : (pushWord last data).extractLsb' 28 4 = 0x1#4 := field_eq_ofNat (by omega)
  have zeros : (pushWord last data).extractLsb' 9 19 = 0#19 := field_eq_ofNat (by omega)
  have lastBit : (pushWord last data).getLsbD 8 = last := bit_eq (by omega)
  have byte : (pushWord last data).extractLsb' 0 8 = data := field_eq (by omega)
  rw [decodeHtw, if_pos op, if_pos zeros, lastBit, byte]

theorem decodeHtw_readWord (addr : Addr) : decodeHtw (readWord addr) = .ok (.rd addr) := by
  have number := readWord_toNat addr
  have op : (readWord addr).extractLsb' 28 4 = 0x2#4 := field_eq_ofNat (by omega)
  have zeros : (readWord addr).extractLsb' 0 12 = 0#12 := field_eq_ofNat (by omega)
  have address : (readWord addr).extractLsb' 12 16 = addr := field_eq (by omega)
  simp [decodeHtw, op, zeros, address]

theorem decodeHtw_writeWord (addr : Addr) (imm : Imm12) :
    decodeHtw (writeWord addr imm) = .ok (writeInstr addr imm) := by
  have number := writeWord_toNat addr imm
  have op : (writeWord addr imm).extractLsb' 28 4 = 0x3#4 := field_eq_ofNat (by omega)
  have address : (writeWord addr imm).extractLsb' 12 16 = addr := field_eq (by omega)
  have immediate : (writeWord addr imm).extractLsb' 0 12 = imm := field_eq (by omega)
  simp [decodeHtw, op, address, immediate]

theorem decodeHtw_encWord (cmd : Byte) : decodeHtw (encWord cmd) = .ok (.enc cmd) := by
  have number := encWord_toNat cmd
  have op : (encWord cmd).extractLsb' 28 4 = 0x4#4 := field_eq_ofNat (by omega)
  have zeros : (encWord cmd).extractLsb' 8 20 = 0#20 := field_eq_ofNat (by omega)
  have code : (encWord cmd).extractLsb' 0 8 = cmd := field_eq (by omega)
  simp [decodeHtw, op, zeros, code]

/-! ## The instructions of a beat, of a write and of a key -/

/-- The terminating beat is DISPATCH's word and every other beat PUSH's, and both have the format of R97. -/
theorem encode_beatInstr (last : Bool) (data : Byte) : encode (beatInstr last data) = .htw (pushWord last data) := by
  rw [beatInstr]
  split
  · next h =>
    obtain ⟨rfl, rfl⟩ := h
    rfl
  · rfl

/-- PUSH's row leaves the terminating beat to DISPATCH (R131). -/
theorem push_wellFormed_iff {last : Bool} {data : Byte} :
    (Instr.push last data).wellFormed = true ↔ ¬(last = true ∧ data = TERM) := by
  cases last <;> simp [Instr.wellFormed]

theorem beatInstr_wellFormed (last : Bool) (data : Byte) : (beatInstr last data).wellFormed = true := by
  rw [beatInstr]
  split
  · rfl
  · next h => exact push_wellFormed_iff.mpr h

/-- Whatever register a write reaches, its word has the format of R99. -/
theorem encode_writeInstr (addr : Addr) (imm : Imm12) : encode (writeInstr addr imm) = .htw (writeWord addr imm) := by
  have parts : wordIndex addr ++ addr.extractLsb' 0 2 = addr := append_extract (w := 14) (v := 2) addr
  have named {index : BitVec 14} (h : wordIndex addr = index) :
      Code.htw (0x3#4 ++ (index ++ addr.extractLsb' 0 2) ++ imm) = .htw (writeWord addr imm) := by
    rw [← h, parts, writeWord]
  rw [writeInstr]
  split_ifs with ctrl status irqEn
  · exact named ctrl
  · exact named status
  · exact named irqEn
  · rfl

/-- WR_OTHER's row leaves the three registers' addresses to their own rows (R194). -/
theorem wrOther_wellFormed_iff {addr : Addr} {imm : Imm12} :
    (Instr.wrOther addr imm).wellFormed = true ↔
      wordIndex addr ≠ 1#14 ∧ wordIndex addr ≠ 2#14 ∧ wordIndex addr ≠ 3#14 := by
  simp [Instr.wellFormed, and_assoc]

theorem writeInstr_wellFormed (addr : Addr) (imm : Imm12) : (writeInstr addr imm).wellFormed = true := by
  rw [writeInstr]
  split_ifs with ctrl status irqEn
  · rfl
  · rfl
  · rfl
  · exact wrOther_wellFormed_iff.mpr ⟨ctrl, status, irqEn⟩

/-- A write whose address is made of a register's index and a lane. -/
theorem decodeHtw_writeWord_lane (index : BitVec 14) (lane : BitVec 2) (imm : Imm12) :
    decodeHtw (writeWord (index ++ lane) imm) = .ok (
      if index = 1#14 then .wrCtrl lane imm
      else if index = 2#14 then .wrStatus lane imm
      else if index = 3#14 then .wrIrqEn lane imm
      else .wrOther (index ++ lane) imm) := by
  rw [decodeHtw_writeWord, writeInstr, Laws.EncodeRow.wordIndex_append, Laws.EncodeRow.lower_append]

/-- IGNORE's row leaves the two decoded keys to their own rows (R158). -/
theorem ignore_wellFormed_iff {key : Byte} :
    (Instr.ignore key).wellFormed = true ↔ key ≠ CMD_BASIC ∧ key ≠ CMD_CELL := by
  simp [Instr.wellFormed]

/-- A key selects a well-formed frame kind, whose key it is (R102). -/
theorem decodeKey_spec (k : Byte) : (decodeKey k).wellFormed = true ∧ encode (decodeKey k) = .key k := by
  rw [decodeKey]
  split_ifs with basic cell
  · exact ⟨rfl, basic ▸ rfl⟩
  · exact ⟨rfl, cell ▸ rfl⟩
  · exact ⟨ignore_wellFormed_iff.mpr ⟨basic, cell⟩, rfl⟩

/-! ## The words that decode and the words that do not -/

/-- The words that decode are those of the four formats, and each decodes to what its format stands for. -/
theorem decodeHtw_ok {w : Word} {i : Instr} (h : decodeHtw w = .ok i) :
    (∃ last data, w = pushWord last data ∧ i = beatInstr last data) ∨
    (∃ addr, w = readWord addr ∧ i = .rd addr) ∨
    (∃ addr imm, w = writeWord addr imm ∧ i = writeInstr addr imm) ∨
    (∃ cmd, w = encWord cmd ∧ i = .enc cmd) := by
  simp only [decodeHtw, ← BitVec.toNat_inj, toNat_extract, BitVec.toNat_ofNat] at h
  split_ifs at h with push zeros read zeros write enc zeros <;> cases h
  · refine .inl ⟨_, _, BitVec.eq_of_toNat_eq ?_, rfl⟩
    rw [pushWord_toNat, toNat_getLsbD, toNat_extract]
    omega
  · refine .inr (.inl ⟨_, BitVec.eq_of_toNat_eq ?_, rfl⟩)
    rw [readWord_toNat, toNat_extract]
    omega
  · refine .inr (.inr (.inl ⟨_, _, BitVec.eq_of_toNat_eq ?_, rfl⟩))
    rw [writeWord_toNat, toNat_extract, toNat_extract]
    omega
  · refine .inr (.inr (.inr ⟨_, BitVec.eq_of_toNat_eq ?_, rfl⟩))
    rw [encWord_toNat, toNat_extract]
    omega

/-- The word is on R101's list: its OP is reserved, or a bit that must be zero is set. -/
def ReservedWord (w : Word) : Prop :=
  w.toNat / 2 ^ 28 = 0 ∨ 5 ≤ w.toNat / 2 ^ 28 ∨
    (w.toNat / 2 ^ 28 = 1 ∧ w.toNat / 2 ^ 9 % 2 ^ 19 ≠ 0) ∨
    (w.toNat / 2 ^ 28 = 2 ∧ w.toNat % 2 ^ 12 ≠ 0) ∨
    (w.toNat / 2 ^ 28 = 4 ∧ w.toNat / 2 ^ 8 % 2 ^ 20 ≠ 0)

/-- The decoder errs on the words of R101's list and on no other. -/
theorem decodeHtw_error_iff (w : Word) : (∃ e, decodeHtw w = .error e) ↔ ReservedWord w := by
  have op : w.toNat / 2 ^ 28 % 2 ^ 4 = w.toNat / 2 ^ 28 := Nat.mod_eq_of_lt (by omega)
  simp only [decodeHtw, ReservedWord, ← BitVec.toNat_inj, toNat_extract, BitVec.toNat_ofNat, op]
  -- In each branch the tests on OP and on the zero bits decide the list.
  split_ifs <;> simp <;> omega

end Sys2Proof

namespace Sys2Proof.Machine

/-- Settles O1: each host operation's word has one of the four formats, and each frame kind has its key. -/
theorem decodeOfEncodeIsTheInstruction : Obligations.DecodeOfEncodeIsTheInstruction := by
  intro i wf
  cases i with
  | push last data =>
    exact (decodeHtw_pushWord last data).trans (congrArg _ (if_neg (push_wellFormed_iff.mp wf)))
  | dispatch => exact decodeHtw_pushWord true TERM
  | basicInfo => rfl
  | cellVoltage => rfl
  | ignore key =>
    obtain ⟨basic, cell⟩ := ignore_wellFormed_iff.mp wf
    rw [encode, decode, decodeKey, if_neg basic, if_neg cell]
  | runt => rfl
  | rd addr => exact decodeHtw_readWord addr
  | wrCtrl lane imm => exact decodeHtw_writeWord_lane 1#14 lane imm
  | wrStatus lane imm => exact decodeHtw_writeWord_lane 2#14 lane imm
  | wrIrqEn lane imm => exact decodeHtw_writeWord_lane 3#14 lane imm
  | wrOther addr imm =>
    obtain ⟨ctrl, status, irqEn⟩ := wrOther_wellFormed_iff.mp wf
    refine (decodeHtw_writeWord addr imm).trans (congrArg _ ?_)
    rw [writeInstr, if_neg ctrl, if_neg status, if_neg irqEn]
  | enc cmd => exact decodeHtw_encWord cmd

/-- Settles O2: a word that decodes has the format its instruction is encoded in. -/
theorem encodeOfDecodeIsTheCode : Obligations.EncodeOfDecodeIsTheCode := by
  intro c i h
  cases c with
  | htw w =>
    rcases decodeHtw_ok h with ⟨last, data, rfl, rfl⟩ | ⟨addr, rfl, rfl⟩ | ⟨addr, imm, rfl, rfl⟩ |
      ⟨cmd, rfl, rfl⟩
    · exact ⟨beatInstr_wellFormed last data, encode_beatInstr last data⟩
    · exact ⟨rfl, rfl⟩
    · exact ⟨writeInstr_wellFormed addr imm, encode_writeInstr addr imm⟩
    · exact ⟨rfl, rfl⟩
  | key k =>
    cases h
    exact decodeKey_spec k
  | noKey =>
    cases h
    exact ⟨rfl, rfl⟩

/-- A step on a word is refused exactly when the word does not decode: every instruction has a next state. -/
theorem step_word_refused_iff {s : State} {w : Word} {rest : List Stimulus} (hp : s.pending = .htw w :: rest) :
    (∃ e, step s = .refused (.noHostOperation e)) ↔ ∃ e, decodeHtw w = .error e := by
  cases hd : decodeHtw w with
  | ok i =>
    obtain ⟨t, next⟩ := exec_total i (s.setPending rest)
    simp [step_word hp hd, next]
  | error e => simp [step, hp, hd]

/-- Settles O3: the refused words are those the decoder errs on. -/
theorem exactlyReservedWordsAreRefused : Obligations.ExactlyReservedWordsAreRefused := by
  intro w
  refine (decodeHtw_error_iff w).symm.trans ⟨fun h s rest hp => (step_word_refused_iff hp).mpr h, fun h => ?_⟩
  have hp : (presentWord w State.reset).pending = .htw w :: [] := rfl
  exact (step_word_refused_iff hp).mp (h _ _ hp)

/-- Settles O4: a frame of two bytes or more is decoded by its byte 1, a shorter one as a frame without key. -/
theorem everyKeySelectsItsFrameKind : Obligations.EveryKeySelectsItsFrameKind := by
  intro f _
  simp only [getD_eq_frameByte]
  have keyed (h : 2 ≤ f.length) : decode (frameCode f) = .ok (decodeKey (frameByte f 1)) :=
    congrArg decode (frameCode_key h)
  refine ⟨fun h => congrArg decode (frameCode_noKey h), fun h basic => ?_, fun h cell => ?_,
    fun h basic cell => ?_⟩
  · rw [keyed h, basic]
    rfl
  · rw [keyed h, cell]
    rfl
  · rw [keyed h, decodeKey, if_neg basic, if_neg cell]

/-- Settles O5: the decoder computes each of the twelve codes. -/
theorem wordsFromTheFormatsDecode : Obligations.WordsFromTheFormatsDecode := by
  unfold Obligations.WordsFromTheFormatsDecode
  decide

end Sys2Proof.Machine
end

section
/-! PROOFS. Host operations at the ports and as steps: the edge with an operation's pins, the request frame of ENC, and
lists of stimuli that the block takes one step each. -/

namespace Sys2Proof.Machine

/-! ## A host operation as an edge (R96) -/

theorem clockEdge_beatPins (last : Bool) (data : Byte) (s : State) :
    clockEdge (beatPins last data s.encCmd) s = pushBeat data last s := rfl

theorem clockEdge_readPins (a : Addr) (s : State) :
    clockEdge (readPins a s.encCmd) s = s.latchRead (regRead a s) := rfl

theorem clockEdge_writePins (a : Addr) (d : Word) (s : State) :
    clockEdge (writePins a d s.encCmd) s = regWrite a d s := rfl

theorem clockEdge_idlePins (cmd : Byte) (s : State) : clockEdge (idlePins cmd) s = s.presentCmd cmd := rfl

/-- An address made of a register's index and a lane reaches the register (R64). -/
theorem laneAddr_reaches (index : BitVec 14) (lane : BitVec 2) :
    Reaches (laneAddr index lane) (4 * index.toNat) := by
  have := lane.isLt
  rw [Reaches, laneAddr, toNat_append_eq]
  omega

/-- WR(IRQ_EN, d) (R193). -/
theorem regWrite_irqEn {a : Addr} (h : Reaches a 0x000C) (d : Word) (s : State) :
    regWrite a d s = s.setIrqEn d := by
  rw [regWrite, regAt_table h rfl]

/-- The index of the register an address reaches (R64). -/
theorem wordIndex_of_reaches {a : Addr} {n : Nat} (h : Reaches a (4 * n)) : wordIndex a = BitVec.ofNat 14 n := by
  have := a.isLt
  apply BitVec.eq_of_toNat_eq
  rw [wordIndex, toNat_extract, BitVec.toNat_ofNat]
  omega

/-- A write that reaches none of the three registers does nothing (R194). -/
theorem regWrite_other {a : Addr} (ctrl : wordIndex a ≠ 1#14) (status : wordIndex a ≠ 2#14)
    (irqEn : wordIndex a ≠ 3#14) (d : Word) (s : State) : regWrite a d s = s := by
  rcases regWrite_cases a d s with ⟨h, _⟩ | ⟨h, _⟩ | ⟨h, _⟩ | ⟨_, _, _, unchanged⟩
  · exact absurd (wordIndex_of_reaches (n := 1) (reaches_of_regAt_ctrl h)) ctrl
  · exact absurd (wordIndex_of_reaches (n := 2) (reaches_of_regAt_status h)) status
  · exact absurd (wordIndex_of_reaches (n := 3) (reaches_of_regAt_irqEn h)) irqEn
  · exact unchanged

/-- An instruction with a port transaction does what the edge with its pins does (R97 to R100). -/
theorem exec_eq_clockEdge {i : Instr} {s : State} {p : Pins} (wf : i.wellFormed = true)
    (hp : hostPins s.encCmd i = some p) : exec i s = .next (clockEdge p s) := by
  rw [exec_eq]
  cases i <;> cases hp
  case push last data => rfl
  case dispatch => rfl
  case rd addr => rfl
  case wrCtrl lane imm => rw [clockEdge_writePins, regWrite_ctrl (laneAddr_reaches 1#14 lane)]
  case wrStatus lane imm => rw [clockEdge_writePins, regWrite_status (laneAddr_reaches 2#14 lane)]
  case wrIrqEn lane imm => rw [clockEdge_writePins, regWrite_irqEn (laneAddr_reaches 3#14 lane)]
  case wrOther addr imm =>
    obtain ⟨ctrl, status, irqEn⟩ := wrOther_wellFormed_iff.mp wf
    rw [clockEdge_writePins, regWrite_other ctrl status irqEn]
  case enc cmd => rfl

/-- Settles O12: a step on an edge is the edge, which is the instruction. -/
theorem wordsAreNotationForPortTransactions : Obligations.WordsAreNotationForPortTransactions := by
  rintro s _ i p rest wf hp rfl
  exact (exec_eq_clockEdge (s := s.setPending rest) wf hp).symm

/-! ## The request frame (R84, R120) -/

/-- The checksum byte as a number. -/
theorem checksum_toNat (c : Byte) : (checksum c).toNat = (0xFF - (c.toNat + 255) % 256) % 256 := by
  rw [checksum_eq_neg, BitVec.toNat_neg]
  omega

/-- Byte k of the output is byte k of the request frame (R63). -/
theorem requestBits_byte (c : Byte) {k : Nat} (hk : k < 7) :
    (requestBits c).extractLsb' (48 - 8 * k) 8 = (requestFrame c).getD k 0#8 := by
  apply BitVec.eq_of_toNat_eq
  have := c.isLt
  have := (checksum c).isLt
  simp only [toNat_extract, requestBits, toNat_append_eq, BitVec.toNat_ofNat]
  interval_cases k <;>
    simp only [requestFrame, List.getD_cons_zero, List.getD_cons_succ, BitVec.toNat_ofNat] <;>
    omega

/-- Settles O14: ENC presents its code, and the output's bytes are the request frame's. -/
theorem encYieldsTheRequestFrame : Obligations.EncYieldsTheRequestFrame := by
  intro c s
  refine ⟨s.presentCmd c, rfl, rfl, fun k hk => ?_⟩
  show ((requestBits c).extractLsb' (48 - 8 * k) 8).toNat = _
  rw [requestBits_byte c hk, ← checksum_toNat]
  interval_cases k <;> rfl

/-! ## Stimuli taken one step each (R73, R106) -/

/-- A run of `m + n` steps goes on from where `m` steps have led. -/
theorem runSteps_add {m n : Nat} {s u : State} (h : runSteps m s = .next u) :
    runSteps (m + n) s = runSteps n u := by
  induction m generalizing s with
  | zero =>
    cases h
    rw [Nat.zero_add]
  | succ m ih =>
    obtain ⟨v, hs, run⟩ := runSteps_succ_next.mp h
    rw [Nat.add_right_comm, runSteps, hs]
    exact ih run

/-- Presented with the stimuli `l`, the block takes one step for each and gets from `s` to `t`, with the later
stimuli left. -/
def RunsTo (l : List Stimulus) (s t : State) : Prop :=
  ∀ rest, runSteps l.length (s.setPending (l ++ rest)) = .next (t.setPending rest)

theorem RunsTo.nil (s : State) : RunsTo [] s s := fun _ => rfl

theorem RunsTo.append {l m : List Stimulus} {s u t : State} (hl : RunsTo l s u) (hm : RunsTo m u t) :
    RunsTo (l ++ m) s t := by
  intro rest
  rw [List.append_assoc, List.length_append, runSteps_add (hl (m ++ rest))]
  exact hm rest

theorem RunsTo.single {x : Stimulus} {s t : State}
    (h : ∀ rest, step (s.setPending (x :: rest)) = .next (t.setPending rest)) : RunsTo [x] s t := by
  intro rest
  rw [List.singleton_append, List.length_singleton, runSteps, h]
  rfl

/-- Edges run one step each (R74). -/
theorem runsTo_edges (es : List Pins) (s : State) : RunsTo (es.map .edge) s (runEdges es s) := by
  induction es generalizing s with
  | nil => exact .nil s
  | cons p es ih => exact .append (.single (step_setPending_edge p s)) (ih (clockEdge p s))

/-- A host operation presented as its word runs as the instruction (R73, R96). -/
theorem runsTo_word {i : Instr} {w : Word} {s t : State} (decodes : decodeHtw w = .ok i)
    (runs : ∀ rest, exec i (s.setPending rest) = .next (t.setPending rest)) : RunsTo [.htw w] s t :=
  .single fun rest => (step_word rfl decodes).trans (runs rest)

/-- A beat's instruction is the beat, terminating or not (R130, R131). -/
theorem exec_beatInstr (last : Bool) (data : Byte) (s : State) :
    exec (beatInstr last data) s = .next (pushBeat data last s) := by
  rw [beatInstr]
  split
  · next h =>
    obtain ⟨rfl, rfl⟩ := h
    rfl
  · rfl

theorem stimulusOf_beatInstr (last : Bool) (data : Byte) :
    stimulusOf (beatInstr last data) = [.htw (pushWord last data)] := by
  rw [stimulusOf, encode_beatInstr]

/-- The word of a beat runs the beat. -/
theorem runsTo_beat (last : Bool) (data : Byte) (s : State) :
    RunsTo (stimulusOf (beatInstr last data)) s (pushBeat data last s) := by
  rw [stimulusOf_beatInstr]
  refine runsTo_word (decodeHtw_pushWord last data) fun rest => ?_
  rw [exec_beatInstr, pushBeat_setPending]

/-- The word of a read runs the read. -/
theorem runsTo_read (a : Addr) (s : State) : RunsTo (stimulusOf (.rd a)) s (s.latchRead (regRead a s)) := by
  refine runsTo_word (decodeHtw_readWord a) fun rest => ?_
  rw [exec_rd, regRead, view_setPending]
  rfl

/-! ## The pseudo-instruction feed -/

/-- A chunk has one word for each byte. -/
theorem stimuliOf_feed_length (c : List Byte) : (stimuliOf (feed c)).length = c.length := by
  induction c using feed.induct with
  | case1 => rfl
  | case2 b => simp [feed, stimuliOf, stimulusOf_beatInstr]
  | case3 b d rest ih =>
    rw [feed, stimuliOf, List.flatMap_cons, stimulusOf_beatInstr]
    exact congrArg (· + 1) ih

/-- The words of a chunk run its beats (R106). -/
theorem runsTo_feed (c : List Byte) (s : State) : RunsTo (stimuliOf (feed c)) s (feedChunk c s) := by
  induction c using feed.induct generalizing s with
  | case1 => exact .nil s
  | case2 b => exact .append (runsTo_beat true b s) (.nil _)
  | case3 b d rest ih => exact .append (runsTo_beat false b s) (ih (pushBeat b false s))

/-- Settles O25: the words of the chunk, one for each byte, run its beats. -/
theorem feedRunsItsBeats : Obligations.FeedRunsItsBeats := by
  rintro c s _ rest rfl
  rw [← stimuliOf_feed_length c]
  exact runsTo_feed c s rest

/-! ## The pseudo-instruction current_state -/

/-- From `r` to `q` the Driver's trace has grown by stimuli that take the block of `r` to that of `q`. -/
def Advances (r q : DriverRun) : Prop := ∃ l, q.trace = r.trace ++ l ∧ RunsTo l r.block q.block

theorem Advances.trans {r q p : DriverRun} (hrq : Advances r q) (hqp : Advances q p) : Advances r p := by
  obtain ⟨l, traceQ, runQ⟩ := hrq
  obtain ⟨m, traceP, runP⟩ := hqp
  exact ⟨l ++ m, by rw [traceP, traceQ, List.append_assoc], runQ.append runP⟩

/-- A read advances by the edges before it and its own word. -/
theorem advances_driverRead (a : Addr) (r : DriverRun) : Advances r (driverRead a r).2 :=
  ⟨(r.between.headD []).map Stimulus.edge ++ stimulusOf (.rd a), List.append_assoc r.trace _ _,
    (runsTo_edges (r.between.headD []) r.block).append (runsTo_read a _)⟩

theorem advances_driverReads (as : List Addr) (r : DriverRun) : Advances r (driverReads as r).2 := by
  induction as generalizing r with
  | nil => exact ⟨[], (List.append_nil _).symm, .nil r.block⟩
  | cons a as ih => exact (advances_driverRead a r).trans (ih _)

/-- A pass is a sequence of reads (R196). -/
theorem advances_snapshotPass (r : DriverRun) : Advances r (snapshotPass r).rest :=
  (advances_driverRead _ r).trans <| (advances_driverRead _ _).trans <| (advances_driverReads _ _).trans <|
    (advances_driverReads _ _).trans <| (advances_driverRead _ _).trans <| (advances_driverReads _ _).trans <|
    advances_driverRead _ _

/-- The loop is a sequence of passes (R196). -/
theorem advances_snapshotLoop {n : Nat} {r q : DriverRun} {snap : Snapshot}
    (h : snapshotLoop n r = some (snap, q)) : Advances r q := by
  induction n generalizing r with
  | zero => cases h
  | succ n ih =>
    simp only [snapshotLoop] at h
    split at h
    · cases h
      exact advances_snapshotPass r
    · exact (advances_snapshotPass r).trans (ih h)

/-- Settles O56: the stimuli the loop has added to an empty trace are the whole trace. -/
theorem currentStateRunsAsSteps : Obligations.CurrentStateRunsAsSteps := by
  intro r q snap rest empty run
  obtain ⟨l, trace, runs⟩ := advances_snapshotLoop run
  rw [trace, empty, List.nil_append]
  exact runs rest

end Sys2Proof.Machine
end

section
/-! PROOFS. The Command Encoder: the checksum of a request, and what its output depends on (40_encoder.md). -/

namespace Sys2Proof.Machine

/-! ## The checksum (R121, R122) -/

/-- Byte 5 of the output is the checksum (R84). -/
theorem requestBits_checksum (c : Byte) : (requestBits c).extractLsb' 8 8 = checksum c :=
  requestBits_byte c (k := 5) (by decide)

/-- Bytes 4 and 5 of the output are 0xFF and the checksum (R84). -/
theorem requestBits_checksumPair (c : Byte) : (requestBits c).extractLsb' 8 16 = 0xFF#8 ++ checksum c := by
  apply BitVec.eq_of_toNat_eq
  have := (checksum c).isLt
  simp only [toNat_extract, requestBits, toNat_append_eq, BitVec.toNat_ofNat]
  omega

/-- A byte below the byte 0xFF is 0xFF00 with the byte's bits set. -/
theorem ff_append_eq_or (b : Byte) : 0xFF#8 ++ b = 0xFF00#16 ||| b.setWidth 16 := by
  rw [BitVec.append_def]
  rfl

/-- What follows ENC has the request frame of the code on its output (R120). -/
theorem encFrame_of_exec_enc {c : Byte} {s t : State} (h : exec (.enc c) s = .next t) :
    t.encFrame = requestBits c := by
  cases h
  rfl

/-- Settles O15: byte 5 is the checksum, which is −c. -/
theorem checksumNegatesTheCommand : Obligations.ChecksumNegatesTheCommand := by
  intro c s t h
  rw [encFrame_of_exec_enc h, requestBits_checksum, checksum_eq_neg]
  have number : (-c).toNat = (256 - c.toNat) % 256 := BitVec.toNat_neg c
  refine ⟨number, BitVec.neg_eq_not_add c, ?_⟩
  have := c.isLt
  omega

/-- Settles O16: bytes 4 and 5 are 0xFF00 plus the byte −c, which is 256 − c but for c = 0, where it is 0. -/
theorem checksumPairIsSixteenBitNegation : Obligations.ChecksumPairIsSixteenBitNegation := by
  intro c s t h
  rw [encFrame_of_exec_enc h, requestBits_checksum, requestBits_checksumPair]
  have number : (0xFF#8 ++ checksum c).toNat = 0xFF00 + (256 - c.toNat) % 256 := by
    rw [toNat_append_eq, checksum_eq_neg, BitVec.toNat_neg]
    rfl
  have := c.isLt
  refine ⟨ff_append_eq_or (checksum c), fun nonzero => ?_, fun zero => ?_⟩ <;> omega

/-! ## The output and the rest of the block (R123) -/

/-- Settles O17: the output is a function of the encoder's input, which ENC sets from its code and no other
instruction writes. -/
theorem encoderIsIndependent : Obligations.EncoderIsIndependent := by
  refine ⟨fun c s₁ s₂ t₁ t₂ h₁ h₂ => ?_, fun i s t notEnc h => ?_⟩
  · rw [encFrame_of_exec_enc h₁, encFrame_of_exec_enc h₂]
  · obtain ⟨_, leftAlone⟩ := outsideAndParameterAreLeftAlone
    obtain ⟨_, _, encCmd, _⟩ := leftAlone i s t h
    exact congrArg requestBits (encCmd notEnc)

end Sys2Proof.Machine
end

section
/-! PROOFS. The Frame Assembler: what one beat does in each of its four cases, the dispatch of a complete
frame, and chunks of beats (41_assembler.md). -/

namespace Sys2Proof.Machine

/-! ## The clear -/

/-- Settles O40: the clear acts on bit 0 of the data, which is bit 0 of the immediate. -/
theorem controlWriteClearsTheAssembler : Obligations.ControlWriteClearsTheAssembler := by
  intro s lane imm
  have bit : (immWord imm).getLsbD 0 = imm.getLsbD 0 := by simp [immWord]
  refine ⟨fun set => ?_, fun clear => ?_⟩ <;> rw [exec_eq]
  · exact congrArg _ (if_pos (bit.trans set))
  · exact congrArg _ (if_neg (by rw [bit, clear]; decide))

/-! ## A beat that is stored -/

/-- A store is seen at the old length only: the bytes before it stay, and beyond it there are none (R62). -/
theorem read_storeByte_ne (b : Byte) (s : State) {i : Nat} (h : i ≠ s.buf.length) :
    Memory.read (s.storeByte b).buf i = Memory.read s.buf i := by
  by_cases inside : i < s.buf.length
  · exact read_storeByte_other b s i inside
  · have beyond : s.buf.length + 1 ≤ i := by omega
    simp only [Memory.read, storeByte_buf]
    rw [List.getElem?_eq_none (by simpa using beyond), List.getElem?_eq_none (by omega)]

/-- Settles O18: the beat is a store. -/
theorem pushStoresTheByte : Obligations.PushStoresTheByte := by
  intro s last b hm room ht
  refine ⟨s.storeByte b, congrArg _ (pushBeat_store hm room.ne ht), ?_, read_storeByte_same b s,
    fun a => read_storeByte_ne b s, rfl⟩
  simp

/-! ## A beat at a full buffer -/

/-- The overflow, field by field: only the last beat of a chunk leaves the mode ACCUM (R133). -/
theorem overflowBeat_eq {s : State} (hm : s.mode = .accum) (last : Bool) :
    overflowBeat last s = { s with
      buf := []
      sticky := s.sticky ||| 0b100000#6
      mode := if last then .accum else .discard } := by
  cases last with
  | false => rfl
  | true =>
    rw [if_pos rfl, ← hm]
    rfl

/-- Settles O19: both beats overflow, and the terminating beat is the last of its chunk. -/
theorem fullBufferOverflows : Obligations.FullBufferOverflows := by
  intro s last b hm full
  refine ⟨congrArg _ ((pushBeat_full hm full b last).trans (overflowBeat_eq hm last)), ?_⟩
  refine congrArg _ ((pushBeat_full hm full 0x77#8 true).trans ((overflowBeat_eq hm true).trans ?_))
  rw [if_pos rfl, ← hm]

/-! ## The dispatch of a frame -/

/-- A dispatch leaves the assembler, the enables and everything outside alone (R150). -/
theorem dispatchFrame_unchanged (f : Memory) (s : State) :
    (dispatchFrame f s).buf = s.buf ∧ (dispatchFrame f s).mode = s.mode ∧
    (dispatchFrame f s).irqEn = s.irqEn ∧ SameOutside s (dispatchFrame f s) := by
  obtain ⟨t, c, e, _, rfl | ⟨rfl, _⟩ | ⟨rfl, _⟩⟩ := selectDecode_shape f (s.recordFrame f) <;>
    rw [dispatchFrame, e] <;> exact ⟨rfl, rfl, rfl, rfl, rfl, rfl, rfl⟩

/-- A dispatch writes the frame's records, with the result of the cause table (R150, R151, R210). -/
theorem dispatchFrame_records {f : Memory} (hf : f ≠ []) (s : State) :
    (dispatchFrame f s).last = { keyRecord f s.last with result := resultOf f } ∧
    (dispatchFrame f s).stat = statRecord f := by
  obtain ⟨t, e, ⟨_, _, _, rfl⟩ | ⟨_, _, rfl⟩ | ⟨_, _, rfl⟩⟩ :=
    selectDecode_result hf (s.recordFrame f) <;>
  rw [dispatchFrame, e] <;> exact ⟨rfl, rfl⟩

/-- The terminating beat where it is stored (R131, R132). -/
theorem exec_dispatch_terminate {s : State} (hm : s.mode = .accum) (hl : s.buf.length ≠ s.cfg.bufMax) :
    exec .dispatch s = .next (dispatchFrame (s.buf ++ [0x77#8]) s.emptyBuffer) :=
  congrArg _ (pushBeat_terminate hm hl)

/-- Settles O21: the beat is the dispatch of the entire buffer, from the state with the buffer emptied. -/
theorem terminatingBeatDispatchesTheBuffer : Obligations.TerminatingBeatDispatchesTheBuffer := by
  rintro s f hm room rfl
  have nonempty : s.buf ++ [0x77#8] ≠ [] := by simp
  obtain ⟨buf, mode, irqEn, outside⟩ := dispatchFrame_unchanged (s.buf ++ [0x77#8]) s.emptyBuffer
  obtain ⟨last, stat⟩ := dispatchFrame_records nonempty s.emptyBuffer
  refine ⟨_, exec_dispatch_terminate hm room.ne, buf, mode.trans hm, ?_⟩
  rw [last, stat, dispatchFrame_sticky nonempty]
  refine ⟨rfl, rfl, decide_eq_true_iff, rfl, decide_eq_true_iff, rfl, fun k => ?_, irqEn, outside⟩
  rw [setSticky_getLsbD, Bool.or_eq_true, outcomeBit_getLsbD, emptyBuffer_sticky]

/-- The frame kind that the decoder reads from a frame is the decode that DISPATCH selects for it (R102,
R150). -/
theorem exec_frameKind {s : State} {i : Instr} (h : decode (frameCode s.buf) = .ok i) :
    exec i s = .next (selectDecode s.buf s.emptyBuffer) := by
  by_cases short : s.buf.length < 2
  · rw [frameCode_noKey short] at h
    cases h
    simp only [selectDecode, frameCode_noKey short]
    rfl
  · have code := frameCode_key (Nat.le_of_not_lt short)
    rw [code] at h
    cases h
    simp only [selectDecode, code, decodeKey]
    split_ifs <;> rfl

/-- Settles O7: the step is the terminating beat, and its dispatch is the frame kind on the recorded frame. -/
theorem terminatingStepRunsTheDecodedFrameKind : Obligations.TerminatingStepRunsTheDecodedFrameKind := by
  rintro s rest f i hp hm room rfl kind
  have word : decodeHtw 0x10000177#32 = .ok .dispatch := by decide
  rw [step_word hp word, exec_dispatch_terminate (s := s.setPending rest) hm room.ne, exec_frameKind kind]
  rfl

/-! ## DISCARD -/

/-- While the mode is DISCARD the buffer is empty (R134). -/
def DiscardEmpty (s : State) : Prop := s.mode = .discard → s.buf = []

theorem discardEmpty_of_accum {s : State} (hm : s.mode = .accum) : DiscardEmpty s := by
  simp [DiscardEmpty, hm]

/-- Of the host operations only the clear writes the assembler. -/
theorem discardEmpty_hostOps {s u : State} (h : HostOps s u) (hs : DiscardEmpty s) : DiscardEmpty u := by
  induction h with
  | refl => exact hs
  | setPending l _ ih => exact ih
  | presentCmd c _ ih => exact ih
  | latchRead v _ ih => exact ih
  | clearAssembler _ _ => exact fun _ => rfl
  | ackSticky d _ ih => exact ih
  | setIrqEn d _ ih => exact ih

/-- A beat enters DISCARD only by an overflow, which empties the buffer (R133). -/
theorem discardEmpty_pushBeat {s : State} (b : Byte) (last : Bool) (hs : DiscardEmpty s) :
    DiscardEmpty (pushBeat b last s) := by
  rcases pushBeat_cases b last s with ⟨hm, h⟩ | ⟨hm, _, h⟩ | ⟨hm, _, _, h⟩ | ⟨hm, _, _, _, h⟩ <;> rw [h]
  · cases last with
    | false => exact hs
    | true => exact discardEmpty_of_accum rfl
  · rw [overflowBeat_eq hm]
    exact fun _ => rfl
  · exact discardEmpty_of_accum hm
  · obtain ⟨_, mode, _⟩ := dispatchFrame_unchanged (s.buf ++ [0x77#8]) s.emptyBuffer
    exact discardEmpty_of_accum (mode.trans hm)

theorem discardEmpty_step {s t : State} (h : step s = .next t) (hs : DiscardEmpty s) : DiscardEmpty t := by
  rcases step_phases h with ⟨p, rest, _, _, rfl⟩ | ⟨u, ops, rfl | ⟨b, last, rfl⟩⟩
  · exact fun _ => rfl
  · exact discardEmpty_hostOps ops hs
  · exact discardEmpty_pushBeat b last (discardEmpty_hostOps ops hs)

/-- The last beat of a chunk is dropped and ends DISCARD (R134). -/
theorem pushBeat_discard_last {s : State} (hm : s.mode = .discard) (b : Byte) :
    pushBeat b true s = s.setMode .accum :=
  pushBeat_discard hm b true

theorem emptyBuffer_of_buf_nil {s : State} (h : s.buf = []) : s.emptyBuffer = s := by
  rw [State.emptyBuffer, ← h]

/-- Settles O20: the chunk's beats are dropped, and the next beat finds ACCUM and an empty buffer. -/
theorem discardDropsToTheEndOfTheChunk : Obligations.DiscardDropsToTheEndOfTheChunk := by
  refine ⟨fun s b hm => congrArg _ (pushBeat_discard hm b false), fun s b hm => ?_, fun s b hcfg hm empty => ?_,
    fun s t hs h => discardEmpty_step h hs⟩
  · exact ⟨congrArg _ (pushBeat_discard_last hm b), congrArg _ (pushBeat_discard_last hm 0x77#8)⟩
  · have first : exec (.push true b) s = .next (s.setMode .accum) := congrArg _ (pushBeat_discard_last hm b)
    have room : (s.setMode .accum).buf.length ≠ (s.setMode .accum).cfg.bufMax := by
      have := hcfg.1
      simp only [setMode_buf, setMode_cfg, empty, List.length_nil]
      omega
    refine ⟨fun last c ht => ?_, ?_⟩
    · have second : exec (.push last c) (s.setMode .accum) = .next ((s.setMode .accum).storeByte c) :=
        congrArg _ (pushBeat_store rfl room ht)
      simp only [execAll, first, second]
      simp [State.storeByte, State.setMode, empty]
    · have second : exec .dispatch (s.setMode .accum) = .next (dispatchFrame [0x77#8] (s.setMode .accum)) := by
        rw [exec_dispatch_terminate rfl room, emptyBuffer_of_buf_nil (s := s.setMode .accum) empty, setMode_buf,
          empty, List.nil_append]
      simp only [execAll, first, second]
      rfl

/-! ## What completes a frame -/

/-- Every register access and ENC acts by host operations. -/
theorem hostOps_of_hostOperation {i : Instr} {s t : State} (hi : hostOperation i = true)
    (h : exec i s = .next t) : HostOps s t := by
  rw [exec_eq, Host.Outcome.next.injEq] at h
  subst h
  cases i with
  | push | dispatch | basicInfo | cellVoltage | ignore | runt => cases hi
  | rd addr => exact HostOps.refl.latchRead _
  | wrCtrl lane imm => exact hostOps_ctrlWrite _ .refl
  | wrStatus lane imm => exact HostOps.refl.ackSticky _
  | wrIrqEn lane imm => exact HostOps.refl.setIrqEn _
  | wrOther addr imm => exact .refl
  | enc cmd => exact HostOps.refl.presentCmd _

/-- No host operation writes a record. -/
theorem hostOps_sameRecords {s u : State} (h : HostOps s u) : SameRecords s u := by
  induction h with
  | refl => exact ⟨rfl, rfl⟩
  | setPending l _ ih => exact ih
  | presentCmd c _ ih => exact ih
  | latchRead v _ ih => exact ih
  | clearAssembler _ ih => exact ih
  | ackSticky d _ ih => exact ih
  | setIrqEn d _ ih => exact ih

/-- A beat that is dropped, overflows or is stored without terminating completes no frame (R131). -/
theorem pushBeat_completes_no_frame {b : Byte} {last : Bool} {s : State}
    (h : ¬(last = true ∧ b = 0x77#8 ∧ s.mode = .accum ∧ s.buf.length ≠ s.cfg.bufMax)) :
    SameFields s (pushBeat b last s) ∧ SameRecords s (pushBeat b last s) := by
  rcases pushBeat_cases b last s with ⟨_, e⟩ | ⟨hm, _, e⟩ | ⟨_, _, _, e⟩ | ⟨hm, hl, rfl, rfl, _⟩
  · rw [e]
    cases last <;> exact ⟨⟨rfl, rfl, rfl, rfl⟩, rfl, rfl⟩
  · rw [e, overflowBeat_eq hm]
    exact ⟨⟨rfl, rfl, rfl, rfl⟩, rfl, rfl⟩
  · rw [e]
    exact ⟨⟨rfl, rfl, rfl, rfl⟩, rfl, rfl⟩
  · exact absurd ⟨rfl, rfl, hm, hl⟩ h

/-- Settles O22: a PUSH word is no terminating beat, and DISPATCH is one that is not stored here. -/
theorem onlyTerminatingBeatsCompleteFrames : Obligations.OnlyTerminatingBeatsCompleteFrames := by
  intro w i s t hd h notStored
  obtain ⟨noBasic, noCell, noIgnore, noRunt⟩ := decodeHtw_not_frameKind hd
  obtain ⟨wf, _⟩ := encodeOfDecodeIsTheCode (.htw w) i hd
  have host (hi : hostOperation i = true) : SameFields s t ∧ SameRecords s t :=
    have ops := hostOps_of_hostOperation hi h
    ⟨hostOps_sameFields ops, hostOps_sameRecords ops⟩
  cases i with
  | push last data =>
    cases h
    exact pushBeat_completes_no_frame fun ⟨hlast, hdata, _⟩ => push_wellFormed_iff.mp wf ⟨hlast, hdata⟩
  | dispatch =>
    cases h
    exact pushBeat_completes_no_frame fun ⟨_, _, hm, hl⟩ => notStored ⟨rfl, hm, hl⟩
  | basicInfo => exact absurd rfl noBasic
  | cellVoltage => exact absurd rfl noCell
  | ignore key => exact absurd rfl (noIgnore key)
  | runt => exact absurd rfl noRunt
  | rd | wrCtrl | wrStatus | wrIrqEn | wrOther | enc => exact host rfl

end Sys2Proof.Machine
end

section
/-! PROOFS. Chunks of beats: how a chunk that fits is stored or dispatched, and when a split into chunks
makes no difference (R131, R132, R139). -/

namespace Sys2Proof.Machine

/-- The buffer with a run of bytes stored. -/
def State.storeBytes (l : List Byte) (s : State) : State := { s with buf := s.buf ++ l }

@[simp] theorem storeBytes_buf (l : List Byte) (s : State) : (s.storeBytes l).buf = s.buf ++ l := rfl

theorem storeBytes_nil (s : State) : s.storeBytes [] = s := by simp [State.storeBytes]

theorem storeBytes_storeBytes (l m : List Byte) (s : State) :
    (s.storeBytes l).storeBytes m = s.storeBytes (l ++ m) := by
  simp [State.storeBytes]

/-- The assembler is in ACCUM and can take `n` more bytes without holding more than `cap`, which is within
BUF_MAX. -/
structure HasRoom (cap n : Nat) (s : State) : Prop where
  mode : s.mode = .accum
  cap_le : cap ≤ s.cfg.bufMax
  fits : s.buf.length + n ≤ cap

theorem HasRoom.not_full {cap n : Nat} {s : State} (h : HasRoom cap n s) (hn : 0 < n) :
    s.buf.length ≠ s.cfg.bufMax := by
  have := h.cap_le
  have := h.fits
  omega

theorem HasRoom.storeBytes {cap k n : Nat} {l : List Byte} {s : State} (h : HasRoom cap k s)
    (hk : l.length + n ≤ k) : HasRoom cap n (s.storeBytes l) where
  mode := h.mode
  cap_le := h.cap_le
  fits := by
    have := h.fits
    simp only [storeBytes_buf, List.length_append]
    omega

/-- A dispatch empties the buffer, which then has room for anything within BUF_MAX (R132). -/
theorem HasRoom.dispatchFrame {cap k n : Nat} {s : State} (h : HasRoom cap k s) (hn : n ≤ cap) (f : Memory) :
    HasRoom n n (dispatchFrame f s.emptyBuffer) := by
  obtain ⟨buf, mode, _, cfg, _⟩ := dispatchFrame_unchanged f s.emptyBuffer
  have := h.cap_le
  exact ⟨mode.trans h.mode, by simp only [cfg, emptyBuffer_cfg]; omega, by simp [buf]⟩

/-! ## One chunk -/

/-- A byte that another follows in its chunk is a beat with last = 0 (R106). -/
theorem feedChunk_cons (b : Byte) {m : List Byte} (hm : m ≠ []) (s : State) :
    feedChunk (b :: m) s = feedChunk m (pushBeat b false s) := by
  cases m with
  | nil => exact absurd rfl hm
  | cons c m => rfl

/-- Bytes that others follow in their chunk are stored, 0x77 among them (R130, R131). -/
theorem feedChunk_append {cap k : Nat} {l m : List Byte} {s : State} (room : HasRoom cap k s)
    (hl : l.length ≤ k) (hm : m ≠ []) : feedChunk (l ++ m) s = feedChunk m (s.storeBytes l) := by
  induction l generalizing k s with
  | nil => rw [storeBytes_nil, List.nil_append]
  | cons b l ih =>
    simp only [List.length_cons] at hl
    have first : pushBeat b false s = s.storeBytes [b] :=
      pushBeat_store room.mode (room.not_full (by omega)) (by simp)
    have roomRest : HasRoom cap l.length (s.storeBytes [b]) :=
      room.storeBytes (by simp only [List.length_singleton]; omega)
    rw [List.cons_append, feedChunk_cons b (by simp [hm]), first, ih roomRest le_rfl, storeBytes_storeBytes]
    rfl

/-- The last byte of a chunk that fits is a beat with last = 1 on the buffer with all the bytes before it. -/
theorem feedChunk_concat {cap k : Nat} {l : List Byte} {b : Byte} {s : State} (room : HasRoom cap k s)
    (hl : l.length + 1 ≤ k) :
    HasRoom cap 1 (s.storeBytes l) ∧ feedChunk (l ++ [b]) s = pushBeat b true (s.storeBytes l) :=
  ⟨room.storeBytes hl, feedChunk_append room (by omega) (by simp)⟩

/-- A chunk that does not end in the terminator is stored (R130). -/
theorem feedChunk_store {cap k : Nat} {c : List Byte} {s : State} (room : HasRoom cap k s) (hc : c.length ≤ k)
    (ht : c.getLast? ≠ some 0x77#8) : feedChunk c s = s.storeBytes c := by
  obtain rfl | ⟨l, b, rfl⟩ := c.eq_nil_or_concat'
  · exact (storeBytes_nil s).symm
  · obtain ⟨roomLast, fed⟩ := feedChunk_concat (b := b) room (by simpa using hc)
    have hb : b ≠ 0x77#8 := by simpa using ht
    rw [fed, pushBeat_store roomLast.mode (roomLast.not_full Nat.one_pos) (by simp [hb])]
    exact storeBytes_storeBytes l [b] s

/-- A chunk that ends in the terminator dispatches the buffer with the whole chunk (R131, R132). -/
theorem feedChunk_terminate {cap k : Nat} {c : List Byte} {s : State} (room : HasRoom cap k s)
    (hc : c.length ≤ k) (ht : c.getLast? = some 0x77#8) :
    feedChunk c s = dispatchFrame (s.buf ++ c) s.emptyBuffer := by
  obtain ⟨l, rfl⟩ := List.getLast?_eq_some_iff.mp ht
  obtain ⟨roomLast, fed⟩ := feedChunk_concat (b := 0x77#8) room (by simpa using hc)
  rw [fed, pushBeat_terminate roomLast.mode (roomLast.not_full Nat.one_pos), storeBytes_buf, List.append_assoc]
  rfl

/-- Settles O23: the chunk is dispatched from the empty buffer. -/
theorem oneChunkIsOneDispatch : Obligations.OneChunkIsOneDispatch := by
  intro s f hm empty fits ht
  have room : HasRoom s.cfg.bufMax f.length s := ⟨hm, le_rfl, by simpa [empty] using fits⟩
  rw [feedChunk_terminate room le_rfl ht, empty, emptyBuffer_of_buf_nil empty, List.nil_append]

/-! ## Several chunks -/

/-- A chunk uses up room for its bytes at most. -/
theorem HasRoom.feedChunk {cap n : Nat} {c : List Byte} {s : State} (h : HasRoom cap (c.length + n) s) :
    HasRoom cap n (feedChunk c s) := by
  by_cases ht : c.getLast? = some 0x77#8
  · have hn : n ≤ cap := by have := h.fits; omega
    rw [feedChunk_terminate h (by omega) ht]
    exact { h.dispatchFrame le_rfl (s.buf ++ c) with fits := by simp [dispatchFrame_unchanged, hn] }
  · rw [feedChunk_store h (by omega) ht]
    exact h.storeBytes le_rfl

theorem HasRoom.feedChunks {cap n : Nat} {cs : List (List Byte)} {s : State}
    (h : HasRoom cap (cs.flatten.length + n) s) : HasRoom cap n (feedChunks cs s) := by
  induction cs generalizing s with
  | nil =>
    show HasRoom cap n s
    simpa using h
  | cons c cs ih =>
    rw [List.flatten_cons, List.length_append, Nat.add_assoc] at h
    exact ih h.feedChunk

theorem feedChunks_append (cs ds : List (List Byte)) (s : State) :
    feedChunks (cs ++ ds) s = feedChunks ds (feedChunks cs s) :=
  List.foldl_append

/-- Chunks of which none ends in the terminator are stored (R130). -/
theorem feedChunks_store {cap : Nat} {cs : List (List Byte)} {s : State} (room : HasRoom cap cs.flatten.length s)
    (ht : ∀ c ∈ cs, c.getLast? ≠ some 0x77#8) : feedChunks cs s = s.storeBytes cs.flatten := by
  induction cs generalizing s with
  | nil => exact (storeBytes_nil s).symm
  | cons c cs ih =>
    rw [List.flatten_cons, List.length_append] at room
    obtain ⟨htc, htcs⟩ := List.forall_mem_cons.mp ht
    calc feedChunks (c :: cs) s
      _ = feedChunks cs (s.storeBytes c) := by rw [← feedChunk_store room (by omega) htc]; rfl
      _ = (s.storeBytes c).storeBytes cs.flatten := ih (room.storeBytes le_rfl) htcs
      _ = s.storeBytes (c :: cs).flatten := storeBytes_storeBytes c cs.flatten s

/-- When a chunk ends in the terminator the buffer holds no more than the bytes after it (R132). -/
theorem feedChunks_length_lt {cap : Nat} {cs : List (List Byte)} {s : State}
    (room : HasRoom cap cs.flatten.length s) {c : List Byte} (hc : c ∈ cs) (ht : c.getLast? = some 0x77#8) :
    (feedChunks cs s).buf.length < cs.flatten.length := by
  obtain ⟨pre, post, rfl⟩ := List.append_of_mem hc
  have length : (pre ++ c :: post).flatten.length =
      pre.flatten.length + (c.length + post.flatten.length) := by simp
  rw [length] at room ⊢
  have roomC : HasRoom cap (c.length + post.flatten.length) (feedChunks pre s) := room.feedChunks
  have fed : feedChunks (pre ++ c :: post) s = feedChunks post (feedChunk c (feedChunks pre s)) :=
    feedChunks_append pre (c :: post) s
  have roomPost : HasRoom post.flatten.length post.flatten.length (feedChunk c (feedChunks pre s)) := by
    rw [feedChunk_terminate roomC (by omega) ht]
    exact roomC.dispatchFrame (by have := roomC.fits; omega) _
  have bound := (HasRoom.feedChunks (n := 0) roomPost).fits
  have nonempty : 0 < c.length := List.length_pos_of_mem (List.mem_of_getLast? ht)
  rw [fed]
  omega

/-- LAST_LEN tells dispatches of frames of different lengths apart (R150). -/
theorem length_eq_of_dispatchFrame_eq {f g : Memory} {s t : State} (h : dispatchFrame f s = dispatchFrame g t)
    (hf : f ≠ []) (hg : g ≠ []) (hfl : f.length < 65536) (hgl : g.length < 65536) : f.length = g.length := by
  have records := congrArg State.last h
  rw [(dispatchFrame_records hf s).1, (dispatchFrame_records hg t).1] at records
  have len : BitVec.ofNat 16 f.length = BitVec.ofNat 16 g.length := congrArg LastFrame.len records
  have number := congrArg BitVec.toNat len
  rwa [BitVec.toNat_ofNat, BitVec.toNat_ofNat, Nat.mod_eq_of_lt hfl, Nat.mod_eq_of_lt hgl] at number

/-- Settles O24: the last chunk dispatches what the inner ones left in the buffer, which is all their bytes
when none of them ends in the terminator and fewer when one does. -/
theorem fragmentationInvariance : Obligations.FragmentationInvariance := by
  intro s cs hcfg hm empty nonempty fits ht
  have whole : feedChunk cs.flatten s = dispatchFrame cs.flatten s :=
    oneChunkIsOneDispatch s cs.flatten hm empty fits ht
  obtain rfl | ⟨inner, c, rfl⟩ := cs.eq_nil_or_concat'
  · simp at ht
  have hc : c ≠ [] := nonempty c (by simp)
  simp only [List.flatten_append, List.flatten_singleton, List.length_append] at fits ht whole ⊢
  rw [List.getLast?_append_of_ne_nil _ hc] at ht
  have room : HasRoom s.cfg.bufMax (inner.flatten.length + c.length) s :=
    ⟨hm, le_rfl, by simpa [empty] using fits⟩
  have roomC : HasRoom s.cfg.bufMax c.length (feedChunks inner s) := room.feedChunks
  have pieces : feedChunks (inner ++ [c]) s =
      dispatchFrame ((feedChunks inner s).buf ++ c) (feedChunks inner s).emptyBuffer :=
    (feedChunks_append inner [c] s).trans (feedChunk_terminate roomC le_rfl ht)
  rw [whole, pieces, List.dropLast_concat]
  have roomInner : HasRoom s.cfg.bufMax inner.flatten.length s := { room with fits := by have := room.fits; omega }
  refine ⟨fun same d hd htd => ?_, fun stored => ?_⟩
  · have fewer := feedChunks_length_lt roomInner hd htd
    have := hcfg.2
    have lengths := length_eq_of_dispatchFrame_eq same (by simp [hc]) (by simp [hc])
      (by simp only [List.length_append]; omega) (by simp only [List.length_append]; omega)
    simp only [List.length_append] at lengths
    omega
  · rw [feedChunks_store roomInner stored, storeBytes_buf, empty, List.nil_append]
    exact congrArg _ (emptyBuffer_of_buf_nil empty)

end Sys2Proof.Machine
end

section
/-! PROOFS. The Payload Decoder: what each frame kind does with the frame in the buffer, and that a dispatch's
records and commits are functions of the frame (42_decoder.md). -/

namespace Sys2Proof.Machine

/-! ## A frame consumed without a commit -/

/-- The frame is consumed and the outcome raised: three elements are written (R132, R151). -/
theorem emptyBuffer_raiseOutcome (s : State) (c : ResultCode) :
    s.emptyBuffer.raiseOutcome c = { s with
      buf := []
      last := { s.last with result := c }
      sticky := s.sticky ||| outcomeBit c } := rfl

/-- Settles O30: each of the two raises its one outcome. -/
theorem ignoreAndRuntChangeNoField : Obligations.IgnoreAndRuntChangeNoField := by
  intro s k
  rw [exec_eq, exec_eq]
  exact ⟨congrArg _ (emptyBuffer_raiseOutcome s .ignored), congrArg _ (emptyBuffer_raiseOutcome s .runt)⟩

/-! ## Fields as numbers -/

/-- A field in the numbers the statements use (R90). -/
theorem be16_toNat_eq_u16At (f : Memory) (i : Nat) : (be16 f i).toNat = u16At f i := be16_toNat f i

/-- Entry k of a list of fields, as a number (R155, R157). -/
theorem be16List_toNat (f : Memory) {base n k : Nat} (h : k < n) :
    ((be16List f base n).getD k 0#16).toNat = u16At f (base + 2 * k) := by
  rw [be16List_getD f base n k h, be16_toNat_eq_u16At]

/-- The current in the numbers the statements use (R91). -/
theorem be16_toInt_eq_u16At (f : Memory) (i : Nat) :
    (be16 f i).toInt = if u16At f i ≥ 32768 then (u16At f i : Int) - 65536 else u16At f i := by
  rw [be16_toInt, be16_toNat_eq_u16At]

/-! ## BASIC_INFO -/

/-- BASIC_INFO decodes the frame in the buffer and consumes it (R132, R152). -/
theorem exec_basicInfo (s : State) : exec .basicInfo s = .next (basicInfo s.buf s.emptyBuffer) :=
  exec_eq .basicInfo s

/-- A frame that passes the four checks is committed (R152). -/
theorem basicInfo_valid {f : Memory} (h : ValidBasic f) (s : State) :
    basicInfo f s = (s.commitBasic f).raiseOutcome .basicOk := by
  obtain ⟨len, start, status, extent⟩ := h
  rw [basicInfo, ntcCount, if_neg (Nat.not_lt.mpr len), if_neg (not_not.mpr start),
    if_neg (not_not.mpr status), if_neg (Nat.not_lt.mpr extent)]

/-- Settles O26: the frame is committed, and each field of the committed set is read at its offset. -/
theorem basicInfoCommits : Obligations.BasicInfoCommits := by
  rintro s f rfl valid
  have field := be16_toNat_eq_u16At s.buf
  rw [exec_basicInfo, basicInfo_valid valid]
  exact ⟨_, rfl, field 4, be16_toInt_eq_u16At s.buf 6, field 8, field 10, field 12, field 14, field 16, field 18,
    field 20, rfl, rfl, rfl, rfl, rfl, be16List_length s.buf 27 _, fun _ => be16List_toNat s.buf, rfl,
    BitVec.toNat_add s.basicGen 1#16, rfl⟩

/-- Settles O27: the checks are made in that order, and the first that fails raises its outcome. -/
theorem basicInfoFirstFailingCheckWins : Obligations.BasicInfoFirstFailingCheckWins := by
  rintro s f code bit rfl failing
  simp only [getD_eq_frameByte] at failing
  rw [exec_basicInfo, basicInfo, ntcCount]
  rcases failing with ⟨short, rfl, rfl⟩ | ⟨len, start, rfl, rfl⟩ | ⟨len, start, status, rfl, rfl⟩ |
    ⟨len, start, status, extent, rfl, rfl⟩
  · rw [if_pos short, emptyBuffer_raiseOutcome, outcomeBit]
  · rw [if_neg (Nat.not_lt.mpr len), if_pos start, emptyBuffer_raiseOutcome, outcomeBit]
  · rw [if_neg (Nat.not_lt.mpr len), if_neg (not_not.mpr start), if_pos status, emptyBuffer_raiseOutcome, outcomeBit]
  · rw [if_neg (Nat.not_lt.mpr len), if_neg (not_not.mpr start), if_neg (not_not.mpr status), if_pos extent,
      emptyBuffer_raiseOutcome, outcomeBit]

/-! ## CELL_VOLTAGE -/

/-- CELL_VOLTAGE decodes the frame in the buffer and consumes it (R132, R156). -/
theorem exec_cellVoltage (s : State) : exec .cellVoltage s = .next (cellVoltage s.buf s.emptyBuffer) :=
  exec_eq .cellVoltage s

theorem cellVoltage_short {f : Memory} (h : f.length ≤ 6) (s : State) :
    cellVoltage f s = s.raiseOutcome .invalidShort := if_pos (Nat.lt_succ_of_le h)

theorem cellVoltage_valid {f : Memory} (h : ValidCells f) (s : State) :
    cellVoltage f s = (s.commitCells f).raiseOutcome .cellOk := if_neg (Nat.not_lt.mpr h)

/-- Settles O29: the length check fails. -/
theorem shortCellVoltageIsInvalid : Obligations.ShortCellVoltageIsInvalid := by
  intro s short
  rw [exec_cellVoltage, cellVoltage_short short, emptyBuffer_raiseOutcome, outcomeBit]

/-- The second byte of a cell value lies before the three trailer bytes (R87, R157). -/
theorem cellValue_before_trailer {f : Memory} {j : Nat} (h : j < cellCount f) : 5 + 2 * j < f.length - 3 := by
  rw [cellCount] at h
  omega

/-- Settles O28: the frame is committed, and each of its values lies inside the data region. -/
theorem cellVoltageCommits : Obligations.CellVoltageCommits := by
  rintro s f rfl long
  rw [exec_cellVoltage, cellVoltage_valid long]
  exact ⟨_, rfl, rfl, be16List_length s.buf 4 _,
    fun _ inside => ⟨be16List_toNat s.buf inside, cellValue_before_trailer inside⟩, rfl,
    BitVec.toNat_add s.cellGen 1#16, rfl⟩

/-! ## What a dispatch writes is a function of the frame -/

/-- The result names the set that a dispatch commits, and the set holds the frame's values (R152, R156). -/
theorem dispatchFrame_committed {f : Memory} (hf : f ≠ []) (s : State) :
    (resultOf f = .basicOk → (dispatchFrame f s).basic = basicOf f) ∧
    (resultOf f = .cellOk → (dispatchFrame f s).cells = cellsOf f) := by
  obtain ⟨t, e, ⟨_, notBasic, notCell, rfl⟩ | ⟨code, _, rfl⟩ | ⟨code, _, rfl⟩⟩ :=
    selectDecode_result hf (s.recordFrame f) <;> rw [dispatchFrame, e]
  · exact ⟨fun h => absurd h notBasic, fun h => absurd h notCell⟩
  · exact ⟨fun _ => rfl, fun h => nomatch code.symm.trans h⟩
  · exact ⟨fun h => (nomatch code.symm.trans h), fun _ => rfl⟩

/-- Settles O32: both beats dispatch the same frame, whose records and field values are the frame's alone. -/
theorem decodeDependsOnTheFrameOnly : Obligations.DecodeDependsOnTheFrameOnly := by
  intro s₁ s₂ t₁ t₂ hm₁ hm₂ room₁ room₂ same h₁ h₂
  rw [exec_dispatch_terminate hm₁ room₁.ne, same] at h₁
  rw [exec_dispatch_terminate hm₂ room₂.ne] at h₂
  cases h₁
  cases h₂
  have nonempty : s₂.buf ++ [0x77#8] ≠ [] := by simp
  obtain ⟨last₁, stat₁⟩ := dispatchFrame_records nonempty s₁.emptyBuffer
  obtain ⟨last₂, stat₂⟩ := dispatchFrame_records nonempty s₂.emptyBuffer
  obtain ⟨basic₁, cells₁⟩ := dispatchFrame_committed nonempty s₁.emptyBuffer
  obtain ⟨basic₂, cells₂⟩ := dispatchFrame_committed nonempty s₂.emptyBuffer
  rw [last₁, last₂, stat₁, stat₂]
  exact ⟨rfl, rfl, fun ok => (basic₁ ok).trans (basic₂ ok).symm, fun ok => (cells₁ ok).trans (cells₂ ok).symm⟩

end Sys2Proof.Machine
end

section
/-! PROOFS. The host's register writes and the interrupt line: which bits a write reaches, what it leaves alone, and
when the line is raised (43_host_bus.md). -/

namespace Sys2Proof.Machine

/-! ## The write data -/

/-- The immediate of a WR word is the low bits of its data (R99). -/
theorem immWord_getLsbD (imm : Imm12) {k : Nat} (hk : k < 12) : (immWord imm).getLsbD k = imm.getLsbD k := by
  simp only [immWord, BitVec.getLsbD_setWidth, Bool.and_eq_right_iff_imp, decide_eq_true_eq]
  omega

theorem immWord_toNat (imm : Imm12) : (immWord imm).toNat = imm.toNat :=
  BitVec.toNat_setWidth_of_le (by decide)

/-- Settles O41: the write is the acknowledgement, and its data has the immediate's bits. -/
theorem statusWriteClearsTheBitsWrittenOne : Obligations.StatusWriteClearsTheBitsWrittenOne := by
  intro s lane imm
  refine ⟨s.ackSticky (immWord imm), rfl, fun k hk => ?_, rfl⟩
  rw [ackSticky_sticky, clearSticky_getLsbD _ _ _ hk, immWord_getLsbD imm (by omega)]

/-- Settles O42: the stored field is the low six bits of the data. -/
theorem enableWriteStoresSixBits : Obligations.EnableWriteStoresSixBits := by
  intro s lane imm
  refine ⟨s.setIrqEn (immWord imm), rfl, ?_, rfl⟩
  rw [setIrqEn_irqEn, toNat_extract, immWord_toNat]
  omega

/-! ## Writes by address -/

/-- The register index says which address is reached (R64). -/
theorem reaches_of_wordIndex {a : Addr} {n : Nat} (hn : n < 2 ^ 14) (h : wordIndex a = BitVec.ofNat 14 n) :
    Reaches a (4 * n) := by
  have := a.isLt
  have index := congrArg BitVec.toNat h
  rw [wordIndex, toNat_extract, BitVec.toNat_ofNat] at index
  omega

/-- An address that reaches none of the three writable registers has none of their indices. -/
theorem wordIndex_of_not_reaches {a : Addr} (ctrl : ¬ Reaches a 0x0004) (status : ¬ Reaches a 0x0008)
    (irqEn : ¬ Reaches a 0x000C) : wordIndex a ≠ 1#14 ∧ wordIndex a ≠ 2#14 ∧ wordIndex a ≠ 3#14 :=
  ⟨fun h => ctrl (reaches_of_wordIndex (n := 1) (by decide) h),
    fun h => status (reaches_of_wordIndex (n := 2) (by decide) h),
    fun h => irqEn (reaches_of_wordIndex (n := 3) (by decide) h)⟩

/-- A step on an edge that carries a bus write alone is the register write (R82, R96). -/
theorem step_writePins (a : Addr) (d : Word) (s : State) (rest : List Stimulus) :
    step (s.setPending (.edge (writePins a d s.encCmd) :: rest)) = .next ((regWrite a d s).setPending rest) := by
  rw [step_setPending_edge, clockEdge_writePins]

/-- Both fields of CLEAR_ASM follow bit 0 of the data (R135, R191). -/
theorem ctrlWrite_eq (d : Word) (s : State) :
    ctrlWrite d s = { s with
      buf := if d.getLsbD 0 then [] else s.buf
      mode := if d.getLsbD 0 then .accum else s.mode } := by
  rw [ctrlWrite]
  split <;> rfl

/-- The field of d[5:0] is the data cut to six bits. -/
theorem extract_low_six (d : Word) : d.extractLsb' 0 6 = d.setWidth 6 :=
  (BitVec.setWidth_eq_extractLsb' (by decide)).symm

/-- Settles O43: the step is the register write, and the address reached decides what that does. -/
theorem busWriteActsAtThreeRegistersOnly : Obligations.BusWriteActsAtThreeRegistersOnly := by
  rintro s _ a d rest rfl
  have write := step_writePins a d s rest
  refine ⟨fun h => write.trans ?_, fun h => write.trans ?_, fun h => write.trans ?_,
    fun ctrl status irqEn => write.trans ?_⟩
  · rw [regWrite_ctrl h, ctrlWrite_eq]
    rfl
  · rw [regWrite_status h, State.ackSticky, clearSticky, extract_low_six]
    rfl
  · rw [regWrite_irqEn h, State.setIrqEn, extract_low_six]
    rfl
  · obtain ⟨noCtrl, noStatus, noIrqEn⟩ := wordIndex_of_not_reaches ctrl status irqEn
    rw [regWrite_other noCtrl noStatus noIrqEn]
    rfl

/-- Settles O46: the word has the format of a write, and its address selects WR_OTHER. -/
theorem otherWritesHaveNoEffect : Obligations.OtherWritesHaveNoEffect := by
  intro s a imm rest w ctrl status irqEn number
  obtain ⟨noCtrl, noStatus, noIrqEn⟩ := wordIndex_of_not_reaches ctrl status irqEn
  have word : w = writeWord a imm := BitVec.eq_of_toNat_eq (number.trans (writeWord_toNat a imm).symm)
  have decodes : decodeHtw w = .ok (.wrOther a imm) := by
    rw [word, decodeHtw_writeWord, writeInstr, if_neg noCtrl, if_neg noStatus, if_neg noIrqEn]
  exact ⟨rfl, step_word rfl decodes⟩

/-! ## Sequences of host accesses -/

/-- Host accesses run to their end, as host operations that take no stimulus (R194, R222). -/
theorem execAll_hostOps {is : List Instr} (host : ∀ i ∈ is, hostOperation i = true) (s : State) :
    ∃ t, execAll is s = .next t ∧ HostOps s t ∧ t.pending = s.pending := by
  induction is generalizing s with
  | nil => exact ⟨s, rfl, .refl, rfl⟩
  | cons i is ih =>
    obtain ⟨hi, his⟩ := List.forall_mem_cons.mp host
    obtain ⟨u, first⟩ := exec_total i s
    obtain ⟨_, pending, _⟩ := outsideAndParameterAreLeftAlone.2 i s u first
    obtain ⟨t, others, ops, pending'⟩ := ih his u
    refine ⟨t, ?_, (hostOps_of_hostOperation hi first).trans ops, pending'.trans pending⟩
    rw [execAll, first]
    exact others

/-- Settles O44: no host operation writes a field, a counter, a record or the parameter. -/
theorem hostNeverChangesDecodedState : Obligations.HostNeverChangesDecodedState := by
  intro is s host
  obtain ⟨t, run, ops, pending⟩ := execAll_hostOps host s
  exact ⟨t, run, hostOps_sameFields ops, hostOps_sameRecords ops, hostOps_cfg ops, pending⟩

/-! ## The interrupt line -/

/-- A word is not zero when one of its bits is set. -/
theorem ne_zero_iff_exists_bit {n : Nat} (x : BitVec n) : x ≠ 0#n ↔ ∃ k < n, x.getLsbD k = true := by
  rw [← not_iff_not, not_not]
  constructor
  · rintro rfl ⟨k, _, set⟩
    simp at set
  · intro none
    apply BitVec.eq_of_getLsbD_eq
    intro k hk
    simpa using fun set => none ⟨k, hk, set⟩

/-- Settles O47: the line is the AND of STICKY and IRQ_EN not being zero. -/
theorem irqIsTheOrOfEnabledEvents : Obligations.IrqIsTheOrOfEnabledEvents := by
  refine ⟨fun s => ?_, rfl⟩
  simp only [State.irq, irqOf, bne_iff_ne, ne_zero_iff_exists_bit, BitVec.getLsbD_and, Bool.and_eq_true]

end Sys2Proof.Machine
end

section
/-! PROOFS. What `current_state` returns when nothing falls between its reads, and that its loop ends (R196). -/

namespace Sys2Proof.Machine

/-! ## The reads of a pass -/

/-- The addresses a pass reads, in order, from the two counts it reads (R196). -/
def passAddrs (ntcN cellN : Nat) : List Addr :=
  [0x0018#16, 0x0008#16] ++ basicAddrs ++ ntcTempAddrs ntcN ++ [0x005C#16] ++ cellMvAddrs cellN ++ [0x0018#16]

/-- What a pass returns that finds the block in the state `s` at every read. -/
def viewsOf (s : State) : Snapshot :=
  { status := regRead 0x0008#16 s
    basic := basicAddrs.map fun a => regRead a s
    temps := (ntcTempAddrs s.basic.ntcN.toNat).map fun a => regRead a s
    cells := (cellMvAddrs (regRead 0x005C#16 s).toNat).map fun a => regRead a s }

/-- The last of the fifteen basic words is NTC_N. -/
theorem ntcCountRead_views (s : State) : ntcCountRead (basicAddrs.map fun a => regRead a s) = s.basic.ntcN.toNat :=
  BitVec.toNat_setWidth_of_le (b := s.basic.ntcN) (by decide : 8 ≤ 32)

/-- CELL_COUNT reads CELL_N, which fits it (R19). -/
theorem cellCount_toNat {s : State} (hs : Inv s) : (regRead 0x005C#16 s).toNat = s.cells.cellN := by
  have := cellN_lt hs
  rw [regRead_table (w := 0x005C) rfl rfl, view, BitVec.toNat_ofNat]
  omega

/-- Of two reads the later one's value stays (R82). -/
theorem latchRead_latchRead (v w : Word) (s : State) : (s.latchRead v).latchRead w = s.latchRead w := rfl

theorem stimuliOf_append (is js : List Instr) : stimuliOf (is ++ js) = stimuliOf is ++ stimuliOf js :=
  List.flatMap_append

/-! ## A pass with nothing between its reads -/

/-- It returns the views of the one state and leaves the last value read, which is GEN's (log 3). -/
theorem snapshotPass_quiet (s : State) (l : List Stimulus) :
    snapshotPass { block := s, between := [], trace := l } =
      { genBefore := regRead 0x0018#16 s
        genAfter := regRead 0x0018#16 s
        snapshot := viewsOf s
        rest :=
          { block := s.latchRead (regRead 0x0018#16 s)
            between := []
            trace := l ++ stimuliOf ((passAddrs s.basic.ntcN.toNat (regRead 0x005C#16 s).toNat).map .rd) } } := by
  choose lastRead quiet using driverReads_quiet
  simp only [snapshotPass, driverRead_quiet, quiet, regRead_latchRead, ntcCountRead_views, viewsOf, passAddrs,
    latchRead_latchRead, List.map_append, stimuliOf_append, List.append_assoc]
  rfl

/-- Settles O55: the first pass is returned, and CELL_COUNT is CELL_N. -/
theorem currentStateAloneReadsTheState : Obligations.CurrentStateAloneReadsTheState := by
  intro s hs
  have addresses : basicAddrs = [0x0020#16, 0x0024#16, 0x0028#16, 0x002C#16, 0x0030#16, 0x0034#16, 0x0038#16, 0x003C#16,
      0x0040#16, 0x0044#16, 0x0048#16, 0x004C#16, 0x0050#16, 0x0054#16, 0x0058#16] := by decide
  show snapshotLoop 1 _ = _
  simp only [snapshotLoop, snapshotPass_quiet, if_true, viewsOf, cellCount_toNat hs, passAddrs, ntcTempAddrs,
    cellMvAddrs, List.map_map]
  rw [addresses]
  rfl

/-! ## The end of the loop -/

/-- More passes than entries of `between` are enough: a pass that is repeated has used one up. -/
theorem snapshotLoop_returns {n : Nat} {r : DriverRun} (h : r.between.length < n) : ∃ x, snapshotLoop n r = some x := by
  induction n generalizing r with
  | zero => omega
  | succ n ih =>
    simp only [snapshotLoop]
    split
    · exact ⟨_, rfl⟩
    · next repeated =>
      have met : r.between ≠ [] := by
        obtain ⟨s, es, l⟩ := r
        rintro rfl
        simp [snapshotPass_quiet] at repeated
      obtain ⟨k, hk, rest⟩ := snapshotPass_between r
      refine ih ?_
      have := List.length_pos_of_ne_nil met
      rw [rest, List.length_drop]
      omega

/-- Settles O54: one pass more than `between` has entries. -/
theorem currentStateReturns : Obligations.CurrentStateReturns :=
  fun _ => snapshotLoop_returns (Nat.lt_succ_self _)

end Sys2Proof.Machine
end

section
/-! PROOFS. What `current_state` returns is read from one state: between two equal readings of GEN no set is
committed, whatever falls between the reads of the pass (R76, R196). -/

namespace Sys2Proof.Machine

/-! ## The Driver's reads one after the other -/

/-- The Driver gets from `r` to another state of its run by reads. -/
inductive Follows (r : DriverRun) : DriverRun → Prop where
  | refl : Follows r r
  | read {q : DriverRun} (a : Addr) (h : Follows r q) : Follows r (driverRead a q).2

theorem Follows.trans {r q p : DriverRun} (hrq : Follows r q) (hqp : Follows q p) : Follows r p := by
  induction hqp with
  | refl => exact hrq
  | read a _ ih => exact ih.read a

theorem follows_driverReads (as : List Addr) (r : DriverRun) : Follows r (driverReads as r).2 := by
  induction as generalizing r with
  | nil => exact .refl
  | cons a as ih => exact (Follows.refl.read a).trans (ih _)

theorem Follows.advances {r q : DriverRun} (h : Follows r q) : Advances r q := by
  induction h with
  | refl => exact ⟨[], (List.append_nil _).symm, .nil r.block⟩
  | read a _ ih => exact ih.trans (advances_driverRead a _)

/-- What every step keeps, every run keeps. -/
theorem runSteps_keeps {P : State → Prop} (keeps : ∀ s t, step s = .next t → P s → P t) {n : Nat} {s t : State}
    (run : runSteps n s = .next t) (hs : P s) : P t := by
  induction n generalizing s with
  | zero =>
    cases run
    exact hs
  | succ n ih =>
    obtain ⟨u, first, others⟩ := runSteps_succ_next.mp run
    exact ih others (keeps s u first hs)

/-- The parameter does not change while the Driver reads (R11). -/
theorem Follows.cfg {r q : DriverRun} (h : Follows r q) : q.block.cfg = r.block.cfg := by
  obtain ⟨l, _, runs⟩ := h.advances
  have keeps (s t : State) (hs : step s = .next t) (same : s.cfg = r.block.cfg) : t.cfg = r.block.cfg :=
    (step_cfg hs).trans same
  have same := runSteps_keeps keeps (runs []) rfl
  exact same

/-- A read's value is the view of the block after it: the last value read is in no register. -/
theorem driverRead_value_after (a : Addr) (r : DriverRun) :
    (driverRead a r).1 = regRead a (driverRead a r).2.block :=
  (regRead_latchRead a _ _).symm

/-! ## Commits between two reads -/

/-- No edge that falls before the reads to come asserts reset. -/
def NoResetBetween (r : DriverRun) : Prop := ∀ es ∈ r.between, ∀ p ∈ es, p.rst = false

/-- The number of edges that fall before the reads to come. -/
def edgesLeft (r : DriverRun) : Nat := r.between.flatten.length

theorem edgesLeft_driverRead (a : Addr) (r : DriverRun) :
    (r.between.headD []).length + edgesLeft (driverRead a r).2 = edgesLeft r := by
  obtain ⟨s, _ | ⟨es, ess⟩, l⟩ := r
  · rfl
  · simp [edgesLeft]

theorem Follows.edgesLeft_le {r q : DriverRun} (h : Follows r q) : edgesLeft q ≤ edgesLeft r := by
  induction h with
  | refl => exact le_rfl
  | @read q a _ ih =>
    have := edgesLeft_driverRead a q
    omega

theorem NoResetBetween.head {r : DriverRun} (h : NoResetBetween r) : ∀ p ∈ r.between.headD [], p.rst = false := by
  obtain ⟨s, _ | ⟨es, ess⟩, l⟩ := r
  · simp
  · exact h es List.mem_cons_self

theorem NoResetBetween.follows {r q : DriverRun} (h : NoResetBetween r) (hrq : Follows r q) : NoResetBetween q := by
  induction hrq with
  | refl => exact h
  | read a _ ih => exact fun es hes => ih es (List.mem_of_mem_tail hes)

/-- Host operations leave the counter `gen` and its field set, as all decoded state (R194). -/
def KeptByHost {α : Type} (gen : State → Half) (fields : State → α) : Prop :=
  ∀ s u, HostOps s u → gen u = gen s ∧ fields u = fields s

/-- From `s` to `t` the counter gains `d`, and where it gains 0 the fields are the same. -/
def Gains {α : Type} (gen : State → Half) (fields : State → α) (d : Nat) (s t : State) : Prop :=
  gen t = gen s + BitVec.ofNat 16 d ∧ (d = 0 → fields t = fields s)

section
variable {α : Type} {gen : State → Half} {fields : State → α}

theorem Gains.refl (s : State) : Gains gen fields 0 s s := ⟨(BitVec.add_zero _).symm, fun _ => rfl⟩

theorem Gains.trans {d e : Nat} {s u t : State} (hsu : Gains gen fields d s u) (hut : Gains gen fields e u t) :
    Gains gen fields (d + e) s t := by
  obtain ⟨genU, fieldsU⟩ := hsu
  obtain ⟨genT, fieldsT⟩ := hut
  refine ⟨by rw [genT, genU, BitVec.ofNat_add, BitVec.add_assoc], fun h => ?_⟩
  rw [fieldsT (by omega), fieldsU (by omega)]

theorem gains_hostOps (kept : KeptByHost gen fields) {s u : State} (h : HostOps s u) : Gains gen fields 0 s u :=
  ⟨by simpa using (kept s u h).1, fun _ => (kept s u h).2⟩

/-- Edges without reset gain no more than their number. -/
theorem runEdges_gains (counts : CountsChanges gen fields) (kept : KeptByHost gen fields) {es : List Pins}
    (noReset : ∀ p ∈ es, p.rst = false) (s : State) : ∃ d ≤ es.length, Gains gen fields d s (runEdges es s) := by
  have run := runsTo_edges es s []
  have edgesOnly : NoResetFor (es.map Stimulus.edge).length (s.setPending (es.map .edge ++ [])) := by
    intro x hx
    obtain ⟨p, hp, rfl⟩ : ∃ p ∈ es, Stimulus.edge p = x := by simpa using List.mem_of_mem_take hx
    exact noReset p hp
  obtain ⟨d, hd, gained, stand⟩ := runSteps_counts counts edgesOnly run
  have steps : Gains gen fields d (s.setPending (es.map .edge ++ [])) ((runEdges es s).setPending []) := by
    refine ⟨gained, fun h => ?_⟩
    obtain ⟨u, runU, same⟩ := stand h _ le_rfl
    cases run.symm.trans runU
    exact same
  have presented : Gains gen fields 0 s (s.setPending (es.map .edge ++ [])) :=
    gains_hostOps kept (HostOps.refl.setPending _)
  have taken : Gains gen fields 0 ((runEdges es s).setPending []) (runEdges es s) :=
    gains_hostOps kept (HostOps.refl.setPending (runEdges es s).pending)
  exact ⟨0 + d + 0, by simpa using hd, (presented.trans steps).trans taken⟩

/-- Reads gain no more than the edges that fall before them. -/
theorem Follows.gains (counts : CountsChanges gen fields) (kept : KeptByHost gen fields) {r q : DriverRun}
    (h : Follows r q) (noReset : NoResetBetween r) :
    ∃ d, d + edgesLeft q ≤ edgesLeft r ∧ Gains gen fields d r.block q.block := by
  induction h with
  | refl => exact ⟨0, by omega, .refl _⟩
  | @read q a h ih =>
    obtain ⟨d, hd, before⟩ := ih
    obtain ⟨e, he, edges⟩ := runEdges_gains counts kept (noReset.follows h).head q.block
    have := edgesLeft_driverRead a q
    exact ⟨d + e + 0, by omega, (before.trans edges).trans (gains_hostOps kept (HostOps.refl.latchRead _))⟩

/-- Where a counter reads the same before and after fewer than 65536 edges, its fields are the same at every
read in between (R76). -/
theorem fields_eq_of_gen_eq (counts : CountsChanges gen fields) (kept : KeptByHost gen fields) {r m q : DriverRun}
    (noReset : NoResetBetween r) (few : edgesLeft r < 65536) (hrm : Follows r m) (hmq : Follows m q)
    (heq : gen q.block = gen r.block) : fields m.block = fields r.block := by
  obtain ⟨d, hd, before⟩ := hrm.gains counts kept noReset
  obtain ⟨e, he, after⟩ := hmq.gains counts kept (noReset.follows hrm)
  refine before.2 ?_
  have := congrArg BitVec.toNat (heq.symm.trans (before.trans after).1)
  have := (gen r.block).isLt
  simp only [BitVec.toNat_add, BitVec.toNat_ofNat] at *
  omega

end

/-! ## What the field registers show -/

/-- The parameter and both field sets are the same. -/
def SameSets (s t : State) : Prop := t.cfg = s.cfg ∧ t.basic = s.basic ∧ t.cells = s.cells

/-- From V_TOTAL on a register shows the parameter and the field sets only (R35 to R53). -/
theorem regRead_of_sameSets {s t : State} (h : SameSets s t) {a : Addr} (ha : 0x0020 ≤ a.toNat) :
    regRead a t = regRead a s := by
  obtain ⟨cfg, basic, cells⟩ := h
  rw [regRead, regRead, cfg]
  cases hr : regAt s.cfg a with
  | status =>
    have := reaches_of_regAt_status hr
    omega
  | irqEn =>
    have := reaches_of_regAt_irqEn hr
    omega
  | lastFrame =>
    have : Reaches a 0x0010 := reaches_of_regAt hr (by decide) (by decide) (by simp [regTable]) (by simp)
    omega
  | lastStat =>
    have : Reaches a 0x0014 := reaches_of_regAt hr (by decide) (by decide) (by simp [regTable]) (by simp)
    omega
  | gen =>
    have : Reaches a 0x0018 := reaches_of_regAt hr (by decide) (by decide) (by simp [regTable]) (by simp)
    omega
  | _ => simp only [view, cfg, basic, cells]

/-- The valid bits of the STATUS word (R30). -/
theorem status_validBits (s : State) :
    (regRead 0x0008#16 s).getLsbD 8 = s.basic.valid ∧ (regRead 0x0008#16 s).getLsbD 9 = s.cells.valid := by
  rw [regRead_table (w := 0x0008) rfl rfl, view]
  simp only [BitVec.getLsbD_append]
  simp

/-- Equal readings of GEN are equal counters (R34). -/
theorem gens_eq_of_regRead_eq {s t : State} (h : regRead 0x0018#16 s = regRead 0x0018#16 t) :
    t.basicGen = s.basicGen ∧ t.cellGen = s.cellGen := by
  have gen (u : State) : (regRead 0x0018#16 u).toNat = u.cellGen.toNat * 65536 + u.basicGen.toNat := by
    rw [regRead_table (w := 0x0018) (r := .gen) rfl rfl, view_gen_toNat]
  have number := congrArg BitVec.toNat h
  have := s.basicGen.isLt
  have := t.basicGen.isLt
  rw [gen, gen] at number
  exact ⟨BitVec.eq_of_toNat_eq (by omega), BitVec.eq_of_toNat_eq (by omega)⟩

/-- A window of word addresses that starts at V_TOTAL or after it lies there whole. -/
theorem window_field {base n : Nat} (lo : 0x0020 ≤ base) (hi : base + 4 * n ≤ 65536) :
    ∀ a ∈ (List.range n).map fun k => BitVec.ofNat 16 (base + 4 * k), 0x0020 ≤ a.toNat := by
  intro a ha
  obtain ⟨k, hk, rfl⟩ := List.mem_map.mp ha
  have := List.mem_range.mp hk
  rw [BitVec.toNat_ofNat]
  omega

/-- CELL_N is at most CELL_MAX of the largest buffer, since a committed frame fits the buffer (R6, R157). -/
theorem cellN_le {s : State} (hs : Inv s) : s.cells.cellN ≤ 8188 := by
  have hi := hs.config.2
  rcases hs.cells with ⟨_, e⟩ | ⟨_, f, _, hl, e⟩ <;> rw [e]
  · decide
  · simp only [cellsOf, cellCount]
    omega

/-! ## A pass between whose readings of GEN the sets stand -/

/-- Both field sets are those of `u` at every read from `p` to `q`. -/
def Stands (u : State) (p q : DriverRun) : Prop :=
  ∀ m, Follows p m → Follows m q → SameSets u m.block

/-- Where the sets stand, reads of field registers give the views of the one state. -/
theorem driverReads_of_stands {u : State} {p q r : DriverRun} {as : List Addr} (stands : Stands u p q)
    (hpr : Follows p r) (last : Follows (driverReads as r).2 q) (field : ∀ a ∈ as, 0x0020 ≤ a.toNat) :
    (driverReads as r).1 = as.map fun a => regRead a u := by
  induction as generalizing r with
  | nil => rfl
  | cons a as ih =>
    obtain ⟨ha, has⟩ := List.forall_mem_cons.mp field
    have first : Follows p (driverRead a r).2 := hpr.read a
    have sets := stands _ first ((follows_driverReads as _).trans last)
    exact congrArg₂ List.cons ((driverRead_value_after a r).trans (regRead_of_sameSets sets ha)) (ih first last has)

/-- Between equal readings of GEN, over fewer than 65536 edges without reset, the sets stand (R76). -/
theorem stands_of_gens_eq {p q : DriverRun} (noReset : NoResetBetween p) (few : edgesLeft p < 65536)
    (gens : q.block.basicGen = p.block.basicGen ∧ q.block.cellGen = p.block.cellGen) : Stands p.block p q := by
  obtain ⟨basicGen, cellGen⟩ := gens
  have basicKept : KeptByHost State.basicGen State.basic := fun s u h =>
    have ⟨basic, _, gen, _⟩ := hostOps_sameFields h
    ⟨gen, basic⟩
  have cellsKept : KeptByHost State.cellGen State.cells := fun s u h =>
    have ⟨_, cells, _, gen⟩ := hostOps_sameFields h
    ⟨gen, cells⟩
  exact fun m hpm hmq => ⟨hpm.cfg,
    fields_eq_of_gen_eq basicGen_countsChanges basicKept noReset few hpm hmq basicGen,
    fields_eq_of_gen_eq cellGen_countsChanges cellsKept noReset few hpm hmq cellGen⟩

/-! The reads of a pass by name, each with the Driver after it (R196). -/

def passGen (q : DriverRun) : Word × DriverRun := driverRead 0x0018#16 q
def passStatus (q : DriverRun) : Word × DriverRun := driverRead 0x0008#16 (passGen q).2
def passBasic (q : DriverRun) : List Word × DriverRun := driverReads basicAddrs (passStatus q).2
def passTemps (q : DriverRun) : List Word × DriverRun :=
  driverReads (ntcTempAddrs (ntcCountRead (passBasic q).1)) (passBasic q).2
def passCellCount (q : DriverRun) : Word × DriverRun := driverRead 0x005C#16 (passTemps q).2
def passCells (q : DriverRun) : List Word × DriverRun :=
  driverReads (cellMvAddrs (passCellCount q).1.toNat) (passCellCount q).2
def passGenAgain (q : DriverRun) : Word × DriverRun := driverRead 0x0018#16 (passCells q).2

theorem snapshotPass_eq (q : DriverRun) :
    snapshotPass q =
      { genBefore := (passGen q).1
        genAfter := (passGenAgain q).1
        snapshot :=
          { status := (passStatus q).1, basic := (passBasic q).1, temps := (passTemps q).1, cells := (passCells q).1 }
        rest := (passGenAgain q).2 } := rfl

theorem follows_passGenAgain (q : DriverRun) : Follows (passGen q).2 (passGenAgain q).2 :=
  (((((Follows.refl.read _).trans (follows_driverReads _ _)).trans (follows_driverReads _ _)).read _).trans
    (follows_driverReads _ _)).read _

/-- A pass is a sequence of reads (R196). -/
theorem follows_snapshotPass (q : DriverRun) : Follows q (snapshotPass q).rest := by
  have toGen : Follows q (passGen q).2 := Follows.refl.read _
  rw [snapshotPass_eq]
  exact toGen.trans (follows_passGenAgain q)

/-- `snap` shows the fields of `u`: its words but for the rest of STATUS are the views of `u` (R196). -/
def ShowsFieldsOf (u : State) (snap : Snapshot) : Prop :=
  snap.basic = (basicAddrs.map fun a => regRead a u) ∧
  snap.temps = ((ntcTempAddrs u.basic.ntcN.toNat).map fun a => regRead a u) ∧
  snap.cells = ((cellMvAddrs u.cells.cellN).map fun a => regRead a u) ∧
  snap.status.getLsbD 8 = u.basic.valid ∧ snap.status.getLsbD 9 = u.cells.valid

/-- A pass over which the sets of a state with the invariant stand shows that state's fields. -/
theorem snapshotPass_showsFields {u : State} {q : DriverRun} (hu : Inv u)
    (stands : Stands u (passGen q).2 (passGenAgain q).2) : ShowsFieldsOf u (snapshotPass q).snapshot := by
  have toStatus : Follows (passGen q).2 (passStatus q).2 := Follows.refl.read _
  have toBasic : Follows (passGen q).2 (passBasic q).2 := toStatus.trans (follows_driverReads _ _)
  have toTemps : Follows (passGen q).2 (passTemps q).2 := toBasic.trans (follows_driverReads _ _)
  have toCellCount : Follows (passGen q).2 (passCellCount q).2 := toTemps.read _
  have fromCells : Follows (passCells q).2 (passGenAgain q).2 := Follows.refl.read _
  have fromCellCount : Follows (passCellCount q).2 (passGenAgain q).2 := (follows_driverReads _ _).trans fromCells
  have fromTemps : Follows (passTemps q).2 (passGenAgain q).2 := (Follows.refl.read _).trans fromCellCount
  have fromBasic : Follows (passBasic q).2 (passGenAgain q).2 := (follows_driverReads _ _).trans fromTemps
  have fromStatus : Follows (passStatus q).2 (passGenAgain q).2 := (follows_driverReads _ _).trans fromBasic
  have basic : (passBasic q).1 = basicAddrs.map fun a => regRead a u :=
    driverReads_of_stands stands toStatus fromBasic (window_field (by decide) (by decide))
  have ntcN : ntcCountRead (passBasic q).1 = u.basic.ntcN.toNat := by rw [basic, ntcCountRead_views]
  have cellN : (passCellCount q).1.toNat = u.cells.cellN := by
    rw [← cellCount_toNat hu, ← regRead_of_sameSets (stands _ toCellCount fromCellCount) (by decide)]
    exact congrArg BitVec.toNat (driverRead_value_after _ _)
  have temps : (passTemps q).1 = (ntcTempAddrs (ntcCountRead (passBasic q).1)).map fun a => regRead a u := by
    have := u.basic.ntcN.isLt
    exact driverReads_of_stands stands toBasic fromTemps (window_field (by decide) (by omega))
  have cells : (passCells q).1 = (cellMvAddrs (passCellCount q).1.toNat).map fun a => regRead a u := by
    have := cellN_le hu
    exact driverReads_of_stands stands toCellCount fromCells (window_field (by decide) (by omega))
  obtain ⟨_, basicSet, cellSet⟩ := stands _ toStatus fromStatus
  obtain ⟨basicValid, cellsValid⟩ := status_validBits (passStatus q).2.block
  have status : (passStatus q).1 = regRead 0x0008#16 (passStatus q).2.block := driverRead_value_after _ _
  simp only [ShowsFieldsOf, snapshotPass_eq]
  refine ⟨basic, ntcN ▸ temps, cellN ▸ cells, ?_, ?_⟩
  · rw [status, basicValid, basicSet]
  · rw [status, cellsValid, cellSet]

/-! ## The obligation -/

/-- The loop returns a pass that it comes to by reads, and whose two readings of GEN are equal. -/
theorem snapshotLoop_follows {n : Nat} {r q : DriverRun} {snap : Snapshot}
    (h : snapshotLoop n r = some (snap, q)) :
    ∃ p, Follows r p ∧ (snapshotPass p).genBefore = (snapshotPass p).genAfter ∧
      snap = (snapshotPass p).snapshot ∧ q = (snapshotPass p).rest := by
  induction n generalizing r with
  | zero => cases h
  | succ n ih =>
    simp only [snapshotLoop] at h
    split at h
    · next equal =>
      cases h
      exact ⟨r, .refl, equal, rfl, rfl⟩
    · obtain ⟨p, hrp, found⟩ := ih h
      exact ⟨p, (follows_snapshotPass r).trans hrp, found⟩

/-- Settles O57: the state is the one the first reading of GEN leaves, in the pass that is returned. -/
theorem currentStateIsOneCommit : Obligations.CurrentStateIsOneCommit := by
  intro r q snap inv empty noReset few run
  obtain ⟨p, hrp, equal, rfl, rest⟩ := snapshotLoop_follows run
  simp only [snapshotPass_eq] at equal rest
  subst rest
  have toGen : Follows r (passGen p).2 := hrp.read _
  have toEnd : Follows (passGen p).2 (passGenAgain p).2 := follows_passGenAgain p
  have gens : regRead 0x0018#16 (passGen p).2.block = regRead 0x0018#16 (passGenAgain p).2.block :=
    (driverRead_value_after _ _).symm.trans (equal.trans (driverRead_value_after _ _))
  have stands : Stands (passGen p).2.block (passGen p).2 (passGenAgain p).2 :=
    stands_of_gens_eq (NoResetBetween.follows noReset toGen) (toGen.edgesLeft_le.trans_lt few)
      (gens_eq_of_regRead_eq gens)
  obtain ⟨l, traceGen, runGen⟩ := toGen.advances
  obtain ⟨m, traceEnd, _⟩ := toEnd.advances
  have trace : (passGenAgain p).2.trace = l ++ m := by rw [traceEnd, traceGen, empty, List.nil_append]
  have reached : runSteps l.length (r.block.setPending (l ++ m)) = .next ((passGen p).2.block.setPending m) := runGen m
  have invThere : Inv ((passGen p).2.block.setPending m) :=
    runSteps_keeps (fun s t hs inv => stepKeepsTheInvariant s t inv hs) reached
      (inv_hostOps (HostOps.refl.setPending _) inv)
  obtain ⟨basic, temps, cells, basicValid, cellsValid⟩ := snapshotPass_showsFields invThere stands
  refine ⟨l.length, _, by simp [trace], ?_, invThere, basic, temps.trans List.map_map, cells.trans List.map_map,
    basicValid, cellsValid⟩
  rw [trace]
  exact reached

end Sys2Proof.Machine
end

section
/-! PROOFS. Exceptions: which steps the block refuses, and how precise the outcome of a dispatch without a
commit is (60_exceptions.md). -/

namespace Sys2Proof.Machine

/-! ## The step that is refused -/

/-- With nothing presented the step is idle (R226). -/
theorem step_idle {s : State} (hp : s.pending = []) : step s = .next s := by
  simp only [step, hp]

/-- A word that spells no host operation is refused by the decoder's reason (R101). -/
theorem step_reservedWord {s : State} {w : Word} {rest : List Stimulus} {e : DecodeError}
    (hp : s.pending = .htw w :: rest) (hd : decodeHtw w = .error e) :
    step s = .refused (.noHostOperation e) := by
  simp only [step, hp, hd]

/-- Settles O8, by the next stimulus: none, an edge, a word that decodes, and a word that does not are one step
each, and only the last answers no state. -/
theorem onlyReservedWordsStopAStep : Obligations.OnlyReservedWordsStopAStep := by
  refine fun s => ⟨step_idle, ?_⟩
  rcases hp : s.pending with _ | ⟨w | p, rest⟩
  · exact .inl ⟨s, step_idle hp⟩
  · cases hd : decodeHtw w with
    | ok i =>
      obtain ⟨t, next⟩ := exec_total i (s.setPending rest)
      exact .inl ⟨t, (step_word hp hd).trans next⟩
    | error e => exact .inr ⟨w, rest, e, rfl, hd, step_reservedWord hp hd⟩
  · exact .inl ⟨_, step_edge hp⟩

/-! ## The dispatch that commits nothing -/

/-- The mask of an outcome is 1 shifted to the outcome's bit (R211). -/
theorem outcomeBit_eq_shift {c : ResultCode} (h : c ≠ .none) :
    ∃ k, k < 6 ∧ stickyIndex c = some k ∧ outcomeBit c = 1#6 <<< k := by
  cases c with
  | none => exact absurd rfl h
  | basicOk => exact ⟨0, by decide, rfl, rfl⟩
  | cellOk => exact ⟨1, by decide, rfl, rfl⟩
  | ignored => exact ⟨2, by decide, rfl, rfl⟩
  | runt => exact ⟨2, by decide, rfl, rfl⟩
  | invalidShort => exact ⟨3, by decide, rfl, rfl⟩
  | invalidStart => exact ⟨3, by decide, rfl, rfl⟩
  | invalidNtc => exact ⟨3, by decide, rfl, rfl⟩
  | deviceError => exact ⟨4, by decide, rfl, rfl⟩

/-- A dispatch whose result is no success writes the frame's records and raises the outcome, and that is all it
does (R151, R219). -/
theorem dispatchFrame_failed {f : Memory} (hf : f ≠ []) (s : State) (notBasic : resultOf f ≠ .basicOk)
    (notCell : resultOf f ≠ .cellOk) :
    resultOf f ≠ .none ∧ dispatchFrame f s = (s.recordFrame f).raiseOutcome (resultOf f) := by
  obtain ⟨t, e, ⟨outcome, _, _, rfl⟩ | ⟨code, _⟩ | ⟨code, _⟩⟩ := selectDecode_result hf (s.recordFrame f)
  · exact ⟨outcome, e⟩
  · exact absurd code notBasic
  · exact absurd code notCell

/-- Settles O31: the dispatch from the emptied buffer is two writes of records and one outcome's bit. -/
theorem failedDispatchIsPrecise : Obligations.FailedDispatchIsPrecise := by
  intro s t hm room h notBasic notCell
  rw [exec_dispatch_terminate hm room.ne] at h
  cases h
  have nonempty : s.buf ++ [0x77#8] ≠ [] := by simp
  obtain ⟨last, _⟩ := dispatchFrame_records nonempty s.emptyBuffer
  rw [last] at notBasic notCell
  obtain ⟨outcome, failed⟩ := dispatchFrame_failed nonempty s.emptyBuffer notBasic notCell
  obtain ⟨k, hk, index, mask⟩ := outcomeBit_eq_shift outcome
  rw [failed]
  exact ⟨rfl, rfl, k, hk, index, congrArg (s.sticky ||| ·) mask⟩

end Sys2Proof.Machine
end

section
/-! PROOFS. Reset: the edge that resets the block, and what the registers read after it
(70_reset_and_hazards.md). -/

namespace Sys2Proof.Machine

/-! ## The reset edge -/

/-- A reset edge presents the encoder's level and resets: its bus transaction and its beat are not run (R74,
R241). -/
theorem clockEdge_reset {p : Pins} (hr : p.rst = true) (s : State) :
    clockEdge p s = (s.presentCmd p.encCmd).hardReset := if_pos hr

/-- After a reset no event is set and none enabled, so the line is low (R195, R240). -/
@[simp] theorem hardReset_irq (s : State) : s.hardReset.irq = false := by
  simp [State.irq, irqOf]

/-- Settles O13: the step takes the edge, which is a reset alone, and each element is then the reset's. -/
theorem resetEdgeResetsAndDiscards : Obligations.ResetEdgeResetsAndDiscards := by
  intro s p rest hr hp
  have reset : step s = .next ((s.setPending rest).presentCmd p.encCmd).hardReset := by
    rw [step_edge hp, ← clockEdge_setPending, clockEdge_reset hr]
  refine ⟨_, reset, ?_⟩
  simp [BasicSet.empty, CellSet.empty]

/-! ## The registers after reset -/

/-- Every view but the parameter's is 0 after reset: a register shows fields that are 0, and no entry of
either window lies below its count of 0 (R240, R51, R52). -/
theorem view_resetWith (cfg : Config) {r : Reg} (h : r ≠ .param) : view (State.resetWith cfg) r = 0#32 := by
  cases r with
  | param => exact absurd rfl h
  | status => simp [view, State.resetWith, BasicSet.empty, CellSet.empty]
  | lastFrame => simp [view, State.resetWith, resultNumber]
  | lastStat => simp [view, State.resetWith]
  | gen => simp [view, State.resetWith]
  | _ => rfl

/-- PARAM is reached at 0x0000 only (R27). -/
theorem reaches_of_regAt_param {a : Addr} {cfg : Config} (h : regAt cfg a = .param) : Reaches a 0x0000 :=
  reaches_of_regAt h (by decide) (by decide) (by simp [regTable]) (by simp)

/-- Settles O49, by whether the address reaches PARAM: if it does, the read is the parameter's layout, and if
not, the view of a register whose reset value is 0. -/
theorem resetRegistersReadZero : Obligations.ResetRegistersReadZero := by
  refine ⟨fun cfg a hcfg => ⟨_, exec_rd a _, fun param => ?_, fun other => ?_⟩, rfl⟩
  · rw [regRead_table param rfl]
    exact view_param_toNat hcfg
  · exact view_resetWith cfg fun param => other (reaches_of_regAt_param param)

end Sys2Proof.Machine
end
